-- ==== Sys2Proof/Word.lean ====
section
/-! DEFINITION. The word types of the core. All values are unsigned (R9, R140). -/

namespace Sys2Proof

/-- A byte: a register V0..VF, a timer, a memory location, an immediate `kk` (R20, R25, R50, R71). -/
abbrev Byte := BitVec 8

/-- A 16-bit value: an instruction word, the pc, I, a stack entry (R24, R27, R28, R70). -/
abbrev Word := BitVec 16

/-- A 4-bit view of an instruction word: a register index or the count `n` (R71). -/
abbrev Nibble := BitVec 4

/-- The 12-bit view `nnn` of an instruction word (R71). -/
abbrev Addr12 := BitVec 12

end Sys2Proof
end

