-- ==== Sys2Proof/Config.lean ====
section
/-! DEFINITION. What an implementation fixes: the parameters of R6, and the free values of R12's `draw()`.

The parameters the spec marks OPEN are one record, `Params`; a state carries it unchanged (log entry 6), so a statement
about every state holds for every setting. The free values are opaque constants without a body (log entries 1 to 4). -/

namespace Sys2Proof

/-- `VF_ORDER`: which write lands last in VF when the destination of a flag-setting instruction is VF (R6, R147). -/
inductive VfOrder where
  | resultLast
  | flagLast
  deriving DecidableEq, Repr

/-- `FONT_DIGIT_POLICY` and `KEY_INDEX_POLICY`: what a byte of 16 or more names where only 0..15 exist (R172, R204). -/
inductive BeyondPolicy where
  | draw
  | mask
  deriving DecidableEq, Repr

/-- `KEY_SELECT`: which of several freshly pressed keys a keypress wait reports (R203). -/
inductive KeySelect where
  | lowest
  | draw
  deriving DecidableEq, Repr

/-- The OPEN parameters of R6. `HALT_PC` is an argument of the end-of-run test instead (R247). -/
structure Params where
  fontBase : Word
  vfOrder : VfOrder
  fontDigitPolicy : BeyondPolicy
  keyIndexPolicy : BeyondPolicy
  keySelect : KeySelect
  strictDecode : Bool
  deriving DecidableEq, Repr

/-- R6's defaults; the two policies have no default, and take the spec's setting for a model, `draw` (log entries 2, 3, 5). -/
def Params.default : Params where
  fontBase := 0x050
  vfOrder := .resultLast
  fontDigitPolicy := .draw
  keyIndexPolicy := .draw
  keySelect := .lowest
  strictDecode := false

/-- R6's condition on the font's place: `FONT_BASE + 80 <= 0x200`. -/
def Params.ok (p : Params) : Bool := p.fontBase.toNat + 80 ≤ 0x200

namespace Config

/-- `MEM_SIZE` (R6): addresses 0x000..0xFFF exist. -/
def memSize : Nat := 4096

/-- `PROGRAM_START` (R6, D3). -/
def programStart : Word := 0x200

/-- The byte that the `n`-th draw gives to an RND: any of 0..255 (R154, D21). A free value, log entry 1. -/
opaque randomByte : Nat → Byte

/-- The 16-bit value that the `n`-th draw gives to I for a byte that is no hexadecimal digit (R172, D10). A free value, log entry 2. -/
opaque glyphAddress : Nat → Word

/-- The Boolean that the `n`-th draw gives for a key index that names no key (R204, D11). A free value, log entry 3. -/
opaque keyBeyond : Nat → Bool

/-- The choice that the `n`-th draw makes among several fresh keys (R203, D12). A free value, log entry 4. -/
opaque keyChoice : Nat → Nat

end Config

end Sys2Proof
end

