-- ==== Sys2Proof/Syntax.lean ====
section
/-! DEFINITION. The 35 instruction kinds (R75), one constructor per row of spec/opcode_table.json, in the table's order.
Operands are the views of R71 that the kind's format names (R74). -/

namespace Sys2Proof

/-- The closed enumeration of R75. -/
inductive Instr where
  /-- CLS, `0-E0`. -/
  | cls
  /-- RET, `0-EE`. -/
  | ret
  /-- JP nnn, `1nnn`. -/
  | jp (nnn : Addr12)
  /-- CALL nnn, `2nnn`. -/
  | call (nnn : Addr12)
  /-- SE Vx,kk, `3xkk`. -/
  | seImm (x : Nibble) (kk : Byte)
  /-- SNE Vx,kk, `4xkk`. -/
  | sneImm (x : Nibble) (kk : Byte)
  /-- SE Vx,Vy, `5xy-`. -/
  | seReg (x y : Nibble)
  /-- LD Vx,kk, `6xkk`. -/
  | ldImm (x : Nibble) (kk : Byte)
  /-- ADD Vx,kk, `7xkk`. -/
  | addImm (x : Nibble) (kk : Byte)
  /-- LD Vx,Vy, `8xy0`. -/
  | ldReg (x y : Nibble)
  /-- OR Vx,Vy, `8xy1`. -/
  | orReg (x y : Nibble)
  /-- AND Vx,Vy, `8xy2`. -/
  | andReg (x y : Nibble)
  /-- XOR Vx,Vy, `8xy3`. -/
  | xorReg (x y : Nibble)
  /-- ADD Vx,Vy, `8xy4`. -/
  | addReg (x y : Nibble)
  /-- SUB Vx,Vy, `8xy5`. -/
  | subReg (x y : Nibble)
  /-- SHR Vx, `8xy6`; y is decoded and then ignored (R74, R151). -/
  | shr (x y : Nibble)
  /-- SUBN Vx,Vy, `8xy7`. -/
  | subnReg (x y : Nibble)
  /-- SHL Vx, `8xyE`; y is decoded and then ignored (R74, R153). -/
  | shl (x y : Nibble)
  /-- SNE Vx,Vy, `9xy-`. -/
  | sneReg (x y : Nibble)
  /-- LD I,nnn, `Annn`. -/
  | ldI (nnn : Addr12)
  /-- JP V0,nnn, `Bnnn`. -/
  | jpV0 (nnn : Addr12)
  /-- RND Vx,kk, `Cxkk`. -/
  | rnd (x : Nibble) (kk : Byte)
  /-- DRW Vx,Vy,n, `Dxyn`. -/
  | drw (x y n : Nibble)
  /-- SKP Vx, `Ex9E`. -/
  | skp (x : Nibble)
  /-- SKNP Vx, `ExA1`. -/
  | sknp (x : Nibble)
  /-- LD Vx,DT, `Fx07`. -/
  | ldVxDT (x : Nibble)
  /-- LD Vx,K, `Fx0A`. -/
  | ldVxK (x : Nibble)
  /-- LD DT,Vx, `Fx15`. -/
  | ldDTVx (x : Nibble)
  /-- LD ST,Vx, `Fx18`. -/
  | ldSTVx (x : Nibble)
  /-- ADD I,Vx, `Fx1E`. -/
  | addI (x : Nibble)
  /-- LD F,Vx, `Fx29`. -/
  | ldF (x : Nibble)
  /-- LD B,Vx, `Fx33`. -/
  | ldB (x : Nibble)
  /-- LD [I],Vx, `Fx55`. -/
  | stm (x : Nibble)
  /-- LD Vx,[I], `Fx65`. -/
  | ldm (x : Nibble)
  /-- UNKNOWN: every other word (R78); the word is kept, because the error records it (R221). -/
  | unknown (w : Word)
  deriving DecidableEq, Repr

end Sys2Proof
end

