-- ==== Sys2Proof/WellFormed.lean ====
section
/-! DEFINITION. When an instruction term is one the decoder can give.

Register indices and immediates are right by the width of their fields (R72). What is left to check is that an UNKNOWN
carries a word of the UNKNOWN space (R78), and, under STRICT_DECODE, that no don't-care bit is set (R6, R77, U15). -/

namespace Sys2Proof

/-- The UNKNOWN space, as the table of R78 lists it. -/
def isUnknownWord (w : Word) : Bool :=
  let g := w.extractLsb' 12 4
  let lo := w.extractLsb' 0 8
  let n := w.extractLsb' 0 4
  (g == 0x0#4 && !([0xE0#8, 0xEE#8].contains lo))
  || (g == 0x8#4 && [0x8#4, 0x9#4, 0xA#4, 0xB#4, 0xC#4, 0xD#4, 0xF#4].contains n)
  || (g == 0xE#4 && !([0x9E#8, 0xA1#8].contains lo))
  || (g == 0xF#4 &&
      !([0x07#8, 0x0A#8, 0x15#8, 0x18#8, 0x1E#8, 0x29#8, 0x33#8, 0x55#8, 0x65#8].contains lo))

/-- A word of an executable kind with a don't-care bit set: bits 11:8 of group 0, bits 3:0 of groups 5 and 9 (R77), and the
y field of 8xy6 and 8xyE (U15; log entry 7). -/
def hasDontCareBit (w : Word) : Bool :=
  let g := w.extractLsb' 12 4
  let lo := w.extractLsb' 0 8
  let n := w.extractLsb' 0 4
  (g == 0x0#4 && [0xE0#8, 0xEE#8].contains lo && w.extractLsb' 8 4 != 0#4)
  || ((g == 0x5#4 || g == 0x9#4) && n != 0#4)
  || (g == 0x8#4 && (n == 0x6#4 || n == 0xE#4) && w.extractLsb' 4 4 != 0#4)

/-- The instructions that decoding gives, for STRICT_DECODE = `strict`. -/
def Instr.wf (strict : Bool) : Instr → Bool
  | .unknown w => isUnknownWord w || (strict && hasDontCareBit w)
  | .shr _ y => !strict || y == 0#4
  | .shl _ y => !strict || y == 0#4
  | .cls | .ret | .jp _ | .call _ | .seImm _ _ | .sneImm _ _ | .seReg _ _ | .ldImm _ _ | .addImm _ _ => true
  | .ldReg _ _ | .orReg _ _ | .andReg _ _ | .xorReg _ _ | .addReg _ _ | .subReg _ _ | .subnReg _ _ => true
  | .sneReg _ _ | .ldI _ | .jpV0 _ | .rnd _ _ | .drw _ _ _ | .skp _ | .sknp _ => true
  | .ldVxDT _ | .ldVxK _ | .ldDTVx _ | .ldSTVx _ | .addI _ | .ldF _ | .ldB _ | .stm _ | .ldm _ => true

end Sys2Proof
end

