-- ==== Sys2Proof/Decode.lean ====
section
/-! DEFINITION. The instruction decoder (R70 to R81), and after it the encoder, written from the same map.
The opcode numbers are the spec's, which marks them as general knowledge (G1; log entry 9). -/

namespace Sys2Proof

/-! ## The six views of a word (R71) -/

/-- `w[15:12]`. -/
def group (w : Word) : Nibble := w.extractLsb' 12 4

/-- `w[11:8]`, x. -/
def regX (w : Word) : Nibble := w.extractLsb' 8 4

/-- `w[7:4]`, y. -/
def regY (w : Word) : Nibble := w.extractLsb' 4 4

/-- `w[3:0]`, n. -/
def nibble4 (w : Word) : Nibble := w.extractLsb' 0 4

/-- `w[7:0]`, kk. -/
def imm8 (w : Word) : Byte := w.extractLsb' 0 8

/-- `w[11:0]`, nnn. -/
def addr12 (w : Word) : Addr12 := w.extractLsb' 0 12

/-! ## Classification (R76) -/

/-- Group 0 selects on the low byte alone (R77). -/
def classifyGroup0 (w : Word) : Instr :=
  if imm8 w = 0xE0#8 then .cls
  else if imm8 w = 0xEE#8 then .ret
  else .unknown w

/-- Group 8 selects on the low nibble (R77). -/
def classifyGroup8 (w : Word) : Instr :=
  if nibble4 w = 0x0#4 then .ldReg (regX w) (regY w)
  else if nibble4 w = 0x1#4 then .orReg (regX w) (regY w)
  else if nibble4 w = 0x2#4 then .andReg (regX w) (regY w)
  else if nibble4 w = 0x3#4 then .xorReg (regX w) (regY w)
  else if nibble4 w = 0x4#4 then .addReg (regX w) (regY w)
  else if nibble4 w = 0x5#4 then .subReg (regX w) (regY w)
  else if nibble4 w = 0x6#4 then .shr (regX w) (regY w)
  else if nibble4 w = 0x7#4 then .subnReg (regX w) (regY w)
  else if nibble4 w = 0xE#4 then .shl (regX w) (regY w)
  else .unknown w

/-- Group E selects on the low byte (R77). -/
def classifyGroupE (w : Word) : Instr :=
  if imm8 w = 0x9E#8 then .skp (regX w)
  else if imm8 w = 0xA1#8 then .sknp (regX w)
  else .unknown w

/-- Group F selects on the low byte (R77). -/
def classifyGroupF (w : Word) : Instr :=
  if imm8 w = 0x07#8 then .ldVxDT (regX w)
  else if imm8 w = 0x0A#8 then .ldVxK (regX w)
  else if imm8 w = 0x15#8 then .ldDTVx (regX w)
  else if imm8 w = 0x18#8 then .ldSTVx (regX w)
  else if imm8 w = 0x1E#8 then .addI (regX w)
  else if imm8 w = 0x29#8 then .ldF (regX w)
  else if imm8 w = 0x33#8 then .ldB (regX w)
  else if imm8 w = 0x55#8 then .stm (regX w)
  else if imm8 w = 0x65#8 then .ldm (regX w)
  else .unknown w

/-- R76: the leading nibble first, then the low byte or low nibble for groups 0, 8, E and F. -/
def classify (w : Word) : Instr :=
  if group w = 0x0#4 then classifyGroup0 w
  else if group w = 0x1#4 then .jp (addr12 w)
  else if group w = 0x2#4 then .call (addr12 w)
  else if group w = 0x3#4 then .seImm (regX w) (imm8 w)
  else if group w = 0x4#4 then .sneImm (regX w) (imm8 w)
  else if group w = 0x5#4 then .seReg (regX w) (regY w)
  else if group w = 0x6#4 then .ldImm (regX w) (imm8 w)
  else if group w = 0x7#4 then .addImm (regX w) (imm8 w)
  else if group w = 0x8#4 then classifyGroup8 w
  else if group w = 0x9#4 then .sneReg (regX w) (regY w)
  else if group w = 0xA#4 then .ldI (addr12 w)
  else if group w = 0xB#4 then .jpV0 (addr12 w)
  else if group w = 0xC#4 then .rnd (regX w) (imm8 w)
  else if group w = 0xD#4 then .drw (regX w) (regY w) (nibble4 w)
  else if group w = 0xE#4 then classifyGroupE w
  else classifyGroupF w

/-- The decoder on a word: R76, after STRICT_DECODE (R6, U15) has sent the words with a don't-care bit set to UNKNOWN. -/
def decodeWord (strict : Bool) (w : Word) : Instr :=
  if strict && hasDontCareBit w then .unknown w else classify w

/-! ## Bytes (R55, R70) -/

/-- Why bytes are no instruction: fewer than the two bytes every instruction has (R70). Safe: nothing is decoded. -/
inductive DecodeError where
  | truncated
  deriving DecidableEq, Repr

/-- One instruction from the bytes in address order, the high byte first (R55), with the rest of the bytes. -/
def decodeBytes (strict : Bool) : List Byte → Except DecodeError (Instr × List Byte)
  | hi :: lo :: rest => .ok (decodeWord strict (hi ++ lo), rest)
  | _ => .error .truncated

/-- The instruction word whose low `nbits` bits are those of `w` and whose other bits are 0, in spec/opcode_table.json's numbering. -/
def tableWord (nbits w : Nat) : Word := BitVec.ofNat 16 (w % 2 ^ min nbits 16)

/-- A word as the memory holds it, the high byte at the lower address (R55). -/
def wordBytes (w : Word) : List Byte := [w.extractLsb' 8 8, w.extractLsb' 0 8]

/-- The instruction the decoder reads from a word of the opcode table, with R6's default STRICT_DECODE. -/
def decodeTableWord (nbits w : Nat) : Option Instr :=
  match decodeBytes Params.default.strictDecode (wordBytes (tableWord nbits w)) with
  | .ok (i, _) => some i
  | .error _ => none

/-! ## The encoder (R81); don't-care bits are written as 0 (R91) -/

/-- A word from its group and `nnn` (R71). -/
def wordNNN (g : Nibble) (nnn : Addr12) : Word := g ++ nnn

/-- A word from its group, x and `kk` (R71). -/
def wordXKK (g x : Nibble) (kk : Byte) : Word := g ++ x ++ kk

/-- A word from its group, x, y and n (R71). -/
def wordXYN (g x y n : Nibble) : Word := g ++ x ++ y ++ n

/-- The word of an instruction, by the patterns of R81. -/
def encode : Instr → Word
  | .cls => 0x00E0#16
  | .ret => 0x00EE#16
  | .jp nnn => wordNNN 0x1#4 nnn
  | .call nnn => wordNNN 0x2#4 nnn
  | .seImm x kk => wordXKK 0x3#4 x kk
  | .sneImm x kk => wordXKK 0x4#4 x kk
  | .seReg x y => wordXYN 0x5#4 x y 0x0#4
  | .ldImm x kk => wordXKK 0x6#4 x kk
  | .addImm x kk => wordXKK 0x7#4 x kk
  | .ldReg x y => wordXYN 0x8#4 x y 0x0#4
  | .orReg x y => wordXYN 0x8#4 x y 0x1#4
  | .andReg x y => wordXYN 0x8#4 x y 0x2#4
  | .xorReg x y => wordXYN 0x8#4 x y 0x3#4
  | .addReg x y => wordXYN 0x8#4 x y 0x4#4
  | .subReg x y => wordXYN 0x8#4 x y 0x5#4
  | .shr x y => wordXYN 0x8#4 x y 0x6#4
  | .subnReg x y => wordXYN 0x8#4 x y 0x7#4
  | .shl x y => wordXYN 0x8#4 x y 0xE#4
  | .sneReg x y => wordXYN 0x9#4 x y 0x0#4
  | .ldI nnn => wordNNN 0xA#4 nnn
  | .jpV0 nnn => wordNNN 0xB#4 nnn
  | .rnd x kk => wordXKK 0xC#4 x kk
  | .drw x y n => wordXYN 0xD#4 x y n
  | .skp x => wordXKK 0xE#4 x 0x9E#8
  | .sknp x => wordXKK 0xE#4 x 0xA1#8
  | .ldVxDT x => wordXKK 0xF#4 x 0x07#8
  | .ldVxK x => wordXKK 0xF#4 x 0x0A#8
  | .ldDTVx x => wordXKK 0xF#4 x 0x15#8
  | .ldSTVx x => wordXKK 0xF#4 x 0x18#8
  | .addI x => wordXKK 0xF#4 x 0x1E#8
  | .ldF x => wordXKK 0xF#4 x 0x29#8
  | .ldB x => wordXKK 0xF#4 x 0x33#8
  | .stm x => wordXKK 0xF#4 x 0x55#8
  | .ldm x => wordXKK 0xF#4 x 0x65#8
  | .unknown w => w

/-! ## The opcode table of R81 -/

/-- The mnemonic of an instruction as spec/opcode_table.json spells it. -/
def mnemonic : Instr → String
  | .cls => "CLS"
  | .ret => "RET"
  | .jp _ => "JP_nnn"
  | .call _ => "CALL_nnn"
  | .seImm _ _ => "SE_Vx_kk"
  | .sneImm _ _ => "SNE_Vx_kk"
  | .seReg _ _ => "SE_Vx_Vy"
  | .ldImm _ _ => "LD_Vx_kk"
  | .addImm _ _ => "ADD_Vx_kk"
  | .ldReg _ _ => "LD_Vx_Vy"
  | .orReg _ _ => "OR_Vx_Vy"
  | .andReg _ _ => "AND_Vx_Vy"
  | .xorReg _ _ => "XOR_Vx_Vy"
  | .addReg _ _ => "ADD_Vx_Vy"
  | .subReg _ _ => "SUB_Vx_Vy"
  | .shr _ _ => "SHR_Vx"
  | .subnReg _ _ => "SUBN_Vx_Vy"
  | .shl _ _ => "SHL_Vx"
  | .sneReg _ _ => "SNE_Vx_Vy"
  | .ldI _ => "LD_I_nnn"
  | .jpV0 _ => "JP_V0_nnn"
  | .rnd _ _ => "RND_Vx_kk"
  | .drw _ _ _ => "DRW_Vx_Vy_n"
  | .skp _ => "SKP_Vx"
  | .sknp _ => "SKNP_Vx"
  | .ldVxDT _ => "LD_Vx_DT"
  | .ldVxK _ => "LD_Vx_K"
  | .ldDTVx _ => "LD_DT_Vx"
  | .ldSTVx _ => "LD_ST_Vx"
  | .addI _ => "ADD_I_Vx"
  | .ldF _ => "LD_F_Vx"
  | .ldB _ => "LD_B_Vx"
  | .stm _ => "LD__I__Vx"
  | .ldm _ => "LD_Vx__I"
  | .unknown _ => "UNKNOWN"

/-- The rows of R81 with a match and a mask, in order: (mnemonic, match, mask). -/
def opcodeTable : List (String × Word × Word) :=
  [ ("CLS", 0x00E0, 0xF0FF), ("RET", 0x00EE, 0xF0FF), ("JP_nnn", 0x1000, 0xF000), ("CALL_nnn", 0x2000, 0xF000),
    ("SE_Vx_kk", 0x3000, 0xF000), ("SNE_Vx_kk", 0x4000, 0xF000), ("SE_Vx_Vy", 0x5000, 0xF000),
    ("LD_Vx_kk", 0x6000, 0xF000), ("ADD_Vx_kk", 0x7000, 0xF000) ] ++
  [ ("LD_Vx_Vy", 0x8000, 0xF00F), ("OR_Vx_Vy", 0x8001, 0xF00F), ("AND_Vx_Vy", 0x8002, 0xF00F),
    ("XOR_Vx_Vy", 0x8003, 0xF00F), ("ADD_Vx_Vy", 0x8004, 0xF00F), ("SUB_Vx_Vy", 0x8005, 0xF00F),
    ("SHR_Vx", 0x8006, 0xF00F), ("SUBN_Vx_Vy", 0x8007, 0xF00F), ("SHL_Vx", 0x800E, 0xF00F) ] ++
  [ ("SNE_Vx_Vy", 0x9000, 0xF000), ("LD_I_nnn", 0xA000, 0xF000), ("JP_V0_nnn", 0xB000, 0xF000),
    ("RND_Vx_kk", 0xC000, 0xF000), ("DRW_Vx_Vy_n", 0xD000, 0xF000), ("SKP_Vx", 0xE09E, 0xF0FF),
    ("SKNP_Vx", 0xE0A1, 0xF0FF) ] ++
  [ ("LD_Vx_DT", 0xF007, 0xF0FF), ("LD_Vx_K", 0xF00A, 0xF0FF), ("LD_DT_Vx", 0xF015, 0xF0FF),
    ("LD_ST_Vx", 0xF018, 0xF0FF), ("ADD_I_Vx", 0xF01E, 0xF0FF), ("LD_F_Vx", 0xF029, 0xF0FF),
    ("LD_B_Vx", 0xF033, 0xF0FF), ("LD__I__Vx", 0xF055, 0xF0FF), ("LD_Vx__I", 0xF065, 0xF0FF) ]

/-- R81: a word matches a row when `(w AND mask) = match`. -/
def rowMatches (w : Word) (row : String × Word × Word) : Bool := w &&& row.2.2 == row.2.1

end Sys2Proof
end

