-- ==== Sys2Proof/Machine/State.lean ====
section
/-! DEFINITION. The state tuple of 10_state.md, its reset value, and why a step stops. -/

namespace Sys2Proof.Machine

/-- The 4096-byte space (R50) as (address, byte) pairs, addresses rising, listing only bytes that differ from what an
unlisted address reads as (`Sys2Proof.Machine.resetByte`, in Machine/Font.lean). -/
abbrev Memory := List Host.Cell

/-- The 64 x 32 one-bit pixels: row, then column (R30). -/
abbrev Display := Vector (Vector Bool 64) 32

/-- The state of the 16 keys: true when pressed (R29). -/
abbrev Keypad := Vector Bool 16

/-- `Waiting(x, snap)`: a suspended keypress wait, its destination register and the keypad last seen (R31). -/
structure Waiting where
  x : Nibble
  snap : Keypad
  deriving DecidableEq, Repr

/-- The state tuple of 10_state.md, and two fields of the model's own (`params`, `draws`). -/
structure State where
  /-- V0..VF (R20); VF is `V[15]` (R21). -/
  V : Vector Byte 16
  /-- The index register, all 16 bits (R24). -/
  I : Word
  /-- The address of the next instruction (R27). -/
  pc : Word
  /-- The next free stack slot, 0..16 (R28). -/
  sp : Fin 17
  /-- The 16 return-address slots (R28); slots at `sp` and above keep what was last written. -/
  stack : Vector Word 16
  /-- The delay timer (R25). -/
  DT : Byte
  /-- The sound timer (R25). -/
  ST : Byte
  /-- Memory (R50). -/
  mem : Memory
  /-- Keypad state (R29). -/
  keys : Keypad
  /-- The display buffer (R30). -/
  disp : Display
  /-- The pending-instruction marker (R31). -/
  wait : Option Waiting
  /-- The model's own: how many free values have been drawn (R12's `draw()`; log entry 1). -/
  draws : Nat
  /-- The model's own: the OPEN parameters of R6, which nothing changes (log entry 6). -/
  params : Params
  deriving DecidableEq, Repr

/-- The errors of R225, which are the faults of the model (R229), with the information each records. -/
inductive Fault where
  /-- Code 1, raised by UNKNOWN only (R221, R105). Safe: the spec's own stop, with the state unchanged. -/
  | invalidInstruction (pc : Word) (w : Word)
  /-- Code 2, raised by CALL at sp = 16 (R222). Safe: the spec's own stop. -/
  | stackOverflow (pc : Word)
  /-- Code 3, raised by RET at sp = 0 (R223). Safe: the spec's own stop. -/
  | stackUnderflow (pc : Word)
  /-- Code 4, raised by the fetch, DRW, LD B,Vx, LD [I],Vx and LD Vx,[I] at an address above 0xFFF (R224); `addr` is the
  lowest failing address. Safe: the spec's own stop. -/
  | memoryOutOfBounds (pc : Word) (addr : Nat)
  /-- Code 5, the host's LoadImage only (R252); no step raises it. Safe: nothing is written. -/
  | loadOutOfBounds (dest len : Nat)
  deriving DecidableEq, Repr

/-- What the model has no move for. -/
inductive Refusal where
  /-- Raised by an arm of `exec` whose instruction has no meaning yet; no arm does. Safe. -/
  | notModelled (mnemonic : String)
  /-- Raised by the host's SetKey with a key outside 0..15 (R242); no step raises it. Safe. -/
  | keyOutOfRange (k : Nat)
  /-- Raised by the host's LoadImage after the first Step (R252, R246); no step raises it. Safe. -/
  | loadAfterFirstStep
  deriving DecidableEq, Repr

/-- The reset values of R34, for given launch parameters. Memory lists nothing: an unlisted address reads as its reset
contents (log entry 8). -/
def State.resetWith (p : Params) : State where
  V := Vector.replicate 16 0
  I := 0
  pc := Config.programStart
  sp := 0
  stack := Vector.replicate 16 0
  DT := 0
  ST := 0
  mem := []
  keys := Vector.replicate 16 false
  disp := Vector.replicate 32 (Vector.replicate 64 false)
  wait := none
  draws := 0
  params := p

/-- The machine right after reset (R34, R250), with R6's defaults. -/
def State.reset : State := State.resetWith Params.default

end Sys2Proof.Machine
end

