-- ==== Sys2Proof/Machine/Font.lean ====
section
/-! DEFINITION. The built-in font (R176) and the reset contents of memory (R34, R250). -/

namespace Sys2Proof.Machine

/-- Glyphs 0 to 7, five rows each (R176). -/
def fontLow : List Byte :=
  [ 0xF0, 0x90, 0x90, 0x90, 0xF0,   0x20, 0x60, 0x20, 0x20, 0x70,
    0xF0, 0x10, 0xF0, 0x80, 0xF0,   0xF0, 0x10, 0xF0, 0x10, 0xF0,
    0x90, 0x90, 0xF0, 0x10, 0x10,   0xF0, 0x80, 0xF0, 0x10, 0xF0,
    0xF0, 0x80, 0xF0, 0x90, 0xF0,   0xF0, 0x10, 0x20, 0x40, 0x40 ]

/-- Glyphs 8 to F, five rows each (R176). -/
def fontHigh : List Byte :=
  [ 0xF0, 0x90, 0xF0, 0x90, 0xF0,   0xF0, 0x90, 0xF0, 0x10, 0xF0,
    0xF0, 0x90, 0xF0, 0x90, 0x90,   0xE0, 0x90, 0xE0, 0x90, 0xE0,
    0xF0, 0x80, 0x80, 0x80, 0xF0,   0xE0, 0x90, 0x90, 0x90, 0xE0,
    0xF0, 0x80, 0xF0, 0x80, 0xF0,   0xF0, 0x80, 0xF0, 0x80, 0x80 ]

/-- The 80 font bytes in address order (R176; log entry 10). -/
def fontBytes : List Byte := fontLow ++ fontHigh

/-- `GLYPH_BYTES` (R6). -/
def glyphBytes : Nat := 5

/-- What reset leaves at address `a`: the font at FONT_BASE..FONT_BASE+79, 0x00 elsewhere (R34). This is what an address that
`State.mem` does not list reads as (log entry 8). -/
def resetByte (fontBase : Word) (a : Nat) : Byte :=
  if fontBase.toNat ≤ a then fontBytes.getD (a - fontBase.toNat) 0 else 0

end Sys2Proof.Machine
end

