-- ==== Sys2Proof/Machine/Ops.lean ====
section
/-! DEFINITION. The named operations over registers, memory, the stack and the pc, and raising an error. -/

namespace Sys2Proof.Machine

/-- The result of executing an instruction, and of a Step (R107). -/
abbrev Result := Host.Outcome State Fault Refusal

/-! ## Raising an error

The core has no trap entry and no return from one: no state is saved, no mode changes, no vector is taken (R220, R234). -/

/-- `raise E(info)`: the step ends, no write of it takes effect, and the error is a fault of the model (R12, R228, R229). -/
def raise (f : Fault) : Result := .fault f

/-- The error codes of R225. -/
def Fault.code : Fault → Nat
  | .invalidInstruction _ _ => 1
  | .stackOverflow _ => 2
  | .stackUnderflow _ => 3
  | .memoryOutOfBounds _ _ => 4
  | .loadOutOfBounds _ _ => 5

/-! ## The pc (R104) -/

/-- The next-pc requests of R104. -/
inductive NextPc where
  | seq
  | skip (taken : Bool)
  | target (t : Word)
  | hold
  deriving DecidableEq, Repr

/-- `Advance(pc, req)` (R104). -/
def advance (pc : Word) : NextPc → Word
  | .seq => pc + 2
  | .skip taken => pc + (if taken then 4 else 2)
  | .target t => t
  | .hold => pc

/-- An instruction has made its writes; its next-pc request is applied and the step succeeds (R100). -/
def State.finish (s : State) (r : NextPc) : Result := .next { s with pc := advance s.pc r }

/-! ## Registers -/

/-- `V[x]` (R10, R20). -/
def State.reg (s : State) (x : Nibble) : Byte := s.V[x.toNat]'x.isLt

/-- `V[x] <- v` (R10, R20). -/
def State.setReg (s : State) (x : Nibble) (v : Byte) : State := { s with V := s.V.set x.toNat v x.isLt }

/-- Key `k` (R29). -/
def State.key (s : State) (k : Nibble) : Bool := s.keys[k.toNat]'k.isLt

/-- One free value has been drawn: the next draw is another (R12; log entry 1). -/
def State.drawn (s : State) : State := { s with draws := s.draws + 1 }

/-! ## Memory as data -/

/-- The byte at `a`, `d` giving the bytes that are not listed. -/
def Memory.byteAt (d : Nat → Byte) : Memory → Nat → Byte
  | [], a => d a
  | (b, v) :: m, a => if a = b then v else Memory.byteAt d m a

/-- Memory with byte `v` at `a`, in canonical form: rising addresses, and no entry equal to what `d` gives. -/
def Memory.store (d : Nat → Byte) : Memory → Nat → Byte → Memory
  | [], a, v => if v = d a then [] else [(a, v)]
  | (b, w) :: m, a, v =>
    if a < b then (if v = d a then (b, w) :: m else (a, v) :: (b, w) :: m)
    else if a = b then (if v = d a then m else (a, v) :: m)
    else (b, w) :: Memory.store d m a v

/-- Consecutive bytes stored from `a` on, in increasing order of address (R56). -/
def Memory.storeBytes (d : Nat → Byte) : Memory → Nat → List Byte → Memory
  | m, _, [] => m
  | m, a, v :: vs => Memory.storeBytes d (Memory.store d m a v) (a + 1) vs

/-- The canonical form from address `lo` on: addresses rising, below `MEM_SIZE`, and no entry equal to what `d` gives. -/
def Memory.wfFrom (d : Nat → Byte) : Nat → Memory → Bool
  | _, [] => true
  | lo, (a, v) :: m => decide (lo ≤ a) && decide (a < Config.memSize) && v != d a && Memory.wfFrom d (a + 1) m

/-- The canonical form of memory. -/
def Memory.wf (d : Nat → Byte) (m : Memory) : Bool := Memory.wfFrom d 0 m

/-! ## Memory of a state -/

/-- The byte that address `a` holds; the bounds are the accessors' to check (R53). -/
def State.byteAt (s : State) (a : Nat) : Byte := Memory.byteAt (resetByte s.params.fontBase) s.mem a

/-- Consecutive bytes written from `a` on; the bounds are the accessors' to check (R53). -/
def State.storeBytes (s : State) (a : Nat) (vs : List Byte) : State :=
  { s with mem := Memory.storeBytes (resetByte s.params.fontBase) s.mem a vs }

/-- `MemRead(addr, 1)`, or the address that is out of bounds (R53). -/
def State.memRead (s : State) (a : Nat) : Except Nat Byte :=
  if a > 0xFFF then .error a else .ok (s.byteAt a)

/-- The lowest of the addresses `base .. base + n - 1` that is above 0xFFF (R53, D6). -/
def firstOutOfBounds (base n : Nat) : Option Nat :=
  ((List.range n).map (base + ·)).find? (fun a => decide (a > 0xFFF))

/-- A multi-byte access of `n` bytes at I checks all its addresses before anything is written (R53, R228). -/
def State.checkIndex (s : State) (n : Nat) (body : Result) : Result :=
  match firstOutOfBounds s.I.toNat n with
  | some a => raise (.memoryOutOfBounds s.pc a)
  | none => body

/-- `Fetch16(pc)`: the big-endian word at `[pc, pc+1]`, or the first address out of bounds (R55, R102). -/
def State.fetch16 (s : State) : Except Nat Word :=
  match s.memRead s.pc.toNat with
  | .error a => .error a
  | .ok hi =>
    match s.memRead (s.pc.toNat + 1) with
    | .error a => .error a
    | .ok lo => .ok (hi ++ lo)

/-! ## The call stack (R28) -/

/-- `stack[sp] <- v; sp <- sp + 1`, or nothing at sp = 16 (R123). -/
def State.push (s : State) (v : Word) : Option State :=
  if h : s.sp.val < 16 then
    some { s with stack := s.stack.set s.sp.val v h, sp := ⟨s.sp.val + 1, by omega⟩ }
  else none

/-- `stack[sp - 1]` and the state with `sp <- sp - 1`, or nothing at sp = 0; the slot is not cleared (R121, D25). -/
def State.pop (s : State) : Option (Word × State) :=
  if h : s.sp.val = 0 then none
  else
    have lt : s.sp.val - 1 < 16 := by have := s.sp.isLt; omega
    some (s.stack[s.sp.val - 1]'lt, { s with sp := ⟨s.sp.val - 1, by omega⟩ })

end Sys2Proof.Machine
end

