-- ==== Sys2Proof/Machine/Flags.lean ====
section
/-! DEFINITION. The flag computations (R147, R148). VF is the only flag (R23). -/

namespace Sys2Proof.Machine

/-- An 8-bit result and its 1-bit flag (R147). -/
structure Flagged where
  res : Byte
  flag : Bool
  deriving DecidableEq, Repr

/-- `zext_8(flag)`. -/
def flagByte (flag : Bool) : Byte := if flag then 1 else 0

/-- Addition: `trunc_8(a + b)` with carry `a + b > 255` (R148, R149). -/
def addCarry (a b : Byte) : Flagged := ⟨a + b, decide (a.toNat + b.toNat > 255)⟩

/-- Subtraction: `trunc_8(a - b + 256)` with no-borrow flag `a >= b` (R148, R150, R152). -/
def subNoBorrow (a b : Byte) : Flagged := ⟨a - b, decide (a.toNat ≥ b.toNat)⟩

/-- `a >> 1` with flag `a[0]` (R148, R151). -/
def shiftRight (a : Byte) : Flagged := ⟨a >>> 1, a.getLsbD 0⟩

/-- `trunc_8(a << 1)` with flag `a[7]` (R148, R153). -/
def shiftLeft (a : Byte) : Flagged := ⟨a <<< 1, a.getLsbD 7⟩

/-- `WriteResultAndFlag(x, res, flag)`: for x = 15 the parameter VF_ORDER decides which write remains (R147). -/
def State.writeFlagged (s : State) (x : Nibble) (r : Flagged) : State :=
  match s.params.vfOrder with
  | .resultLast => (s.setReg 15#4 (flagByte r.flag)).setReg x r.res
  | .flagLast => (s.setReg x r.res).setReg 15#4 (flagByte r.flag)

end Sys2Proof.Machine
end

