-- ==== Sys2Proof/Machine/Operands.lean ====
section
/-! DEFINITION. The operand forms: absolute addresses, glyph addresses, key indices, decimal digits, register ranges. -/

namespace Sys2Proof.Machine

/-- `zext_16(nnn)`: an absolute 12-bit address (R73, R177). -/
def absolute (nnn : Addr12) : Word := nnn.setWidth 16

/-- `V0 + nnn`, in 0x000..0x10FE, not reduced (R73, R128). -/
def indexedTarget (s : State) (nnn : Addr12) : Word := (s.reg 0#4).setWidth 16 + absolute nnn

/-- The glyph of digit `d`: FONT_BASE + 5 * d (R172). -/
def glyphOf (s : State) (d : Nibble) : Word := s.params.fontBase + BitVec.ofNat 16 (glyphBytes * d.toNat)

/-- The address LD F,Vx puts into I for the byte `d`, and the state after a draw, if one was made (R172). -/
def glyphAddress (s : State) (d : Byte) : Word × State :=
  if d.toNat ≤ 0xF then (glyphOf s (d.setWidth 4), s)
  else
    match s.params.fontDigitPolicy with
    | .draw => (Config.glyphAddress s.draws, s.drawn)
    | .mask => (glyphOf s (d.setWidth 4), s)

/-- `KeyAt(k)`, and the state after a draw, if one was made (R204). -/
def keyAt (s : State) (k : Byte) : Bool × State :=
  if k.toNat ≤ 0xF then (s.key (k.setWidth 4), s)
  else
    match s.params.keyIndexPolicy with
    | .draw => (Config.keyBeyond s.draws, s.drawn)
    | .mask => (s.key (k.setWidth 4), s)

/-- The decimal digits hundreds, tens, ones (R173). -/
def decimalDigits (v : Byte) : List Byte :=
  [BitVec.ofNat 8 (v.toNat / 100), BitVec.ofNat 8 (v.toNat / 10 % 10), BitVec.ofNat 8 (v.toNat % 10)]

/-- V0..Vx, in order (R174). -/
def registersUpTo (s : State) (x : Nibble) : List Byte := s.V.toList.take (x.toNat + 1)

end Sys2Proof.Machine
end

