-- ==== Sys2Proof/Machine/Alu.lean ====
section
/-! DEFINITION. Register arithmetic and logic (42_alu.md). Every instruction here requests SEQ and raises nothing. -/

namespace Sys2Proof.Machine

/-- LD Vx,kk (R141). -/
def execLdImm (x : Nibble) (kk : Byte) (s : State) : Result := (s.setReg x kk).finish .seq

/-- ADD Vx,kk: no flag (R142). -/
def execAddImm (x : Nibble) (kk : Byte) (s : State) : Result := (s.setReg x (s.reg x + kk)).finish .seq

/-- LD Vx,Vy (R143). -/
def execLdReg (x y : Nibble) (s : State) : Result := (s.setReg x (s.reg y)).finish .seq

/-- OR Vx,Vy (R144). -/
def execOrReg (x y : Nibble) (s : State) : Result := (s.setReg x (s.reg x ||| s.reg y)).finish .seq

/-- AND Vx,Vy (R145). -/
def execAndReg (x y : Nibble) (s : State) : Result := (s.setReg x (s.reg x &&& s.reg y)).finish .seq

/-- XOR Vx,Vy (R146). -/
def execXorReg (x y : Nibble) (s : State) : Result := (s.setReg x (s.reg x ^^^ s.reg y)).finish .seq

/-- ADD Vx,Vy (R149). -/
def execAddReg (x y : Nibble) (s : State) : Result :=
  (s.writeFlagged x (addCarry (s.reg x) (s.reg y))).finish .seq

/-- SUB Vx,Vy (R150). -/
def execSubReg (x y : Nibble) (s : State) : Result :=
  (s.writeFlagged x (subNoBorrow (s.reg x) (s.reg y))).finish .seq

/-- SHR Vx; the y field is not read (R151). -/
def execShr (x : Nibble) (s : State) : Result := (s.writeFlagged x (shiftRight (s.reg x))).finish .seq

/-- SUBN Vx,Vy (R152). -/
def execSubnReg (x y : Nibble) (s : State) : Result :=
  (s.writeFlagged x (subNoBorrow (s.reg y) (s.reg x))).finish .seq

/-- SHL Vx; the y field is not read (R153). -/
def execShl (x : Nibble) (s : State) : Result := (s.writeFlagged x (shiftLeft (s.reg x))).finish .seq

/-- RND Vx,kk: a free byte, masked (R154; log entry 1). -/
def execRnd (x : Nibble) (kk : Byte) (s : State) : Result :=
  (s.drawn.setReg x (Config.randomByte s.draws &&& kk)).finish .seq

end Sys2Proof.Machine
end

