-- ==== Sys2Proof/Machine/Display.lean ====
section
/-! DEFINITION. The display buffer and its two instructions (44_display.md). -/

namespace Sys2Proof.Machine

/-- `disp[row][col]` (R30). -/
def pixel (d : Display) (row : Fin 32) (col : Fin 64) : Bool := d[row.val][col.val]

/-- `disp[row][col] <- not disp[row][col]`. -/
def togglePixel (d : Display) (row : Fin 32) (col : Fin 64) : Display :=
  d.set row.val (d[row.val].set col.val (!pixel d row col))

/-- `v mod 32`: a row, wrapped (R191). -/
def wrapRow (v : Nat) : Fin 32 := ⟨v % 32, Nat.mod_lt v (by decide)⟩

/-- `v mod 64`: a column, wrapped (R191). -/
def wrapCol (v : Nat) : Fin 64 := ⟨v % 64, Nat.mod_lt v (by decide)⟩

/-- The all-off display (R190). -/
def blankDisplay : Display := Vector.replicate 32 (Vector.replicate 64 false)

/-- A drawing in progress: the display, and whether an on pixel has been turned off (R191's `collide`). -/
structure Drawing where
  disp : Display
  collide : Bool
  deriving DecidableEq, Repr

/-- Sprite bit `7 - c` of `b` onto (row y0 + r, column x0 + c), each wrapped: a 0 bit leaves its pixel (R191). -/
def drawBit (b x0 y0 : Byte) (r : Nat) (dr : Drawing) (c : Nat) : Drawing :=
  let row := wrapRow (y0.toNat + r)
  let col := wrapCol (x0.toNat + c)
  if b.getLsbD (7 - c) then ⟨togglePixel dr.disp row col, dr.collide || pixel dr.disp row col⟩ else dr

/-- One sprite row: columns 0..7, bit 7 leftmost (R191). -/
def drawRow (sprite : Nat → Byte) (x0 y0 : Byte) (dr : Drawing) (r : Nat) : Drawing :=
  (List.range 8).foldl (drawBit (sprite r) x0 y0 r) dr

/-- Sprite rows 0..n-1 (R191). -/
def drawSprite (sprite : Nat → Byte) (x0 y0 : Byte) (n : Nat) (d : Display) : Drawing :=
  (List.range n).foldl (drawRow sprite x0 y0) ⟨d, false⟩

/-- CLS (R190). -/
def execCls (s : State) : Result := { s with disp := blankDisplay }.finish .seq

/-- DRW Vx,Vy,n: the coordinates are read before VF is written, which is last (R191). -/
def execDrw (x y n : Nibble) (s : State) : Result :=
  let dr := drawSprite (fun r => s.byteAt (s.I.toNat + r)) (s.reg x) (s.reg y) n.toNat s.disp
  s.checkIndex n.toNat (({ s with disp := dr.disp }.setReg 15#4 (if dr.collide then 1 else 0)).finish .seq)

end Sys2Proof.Machine
end

