-- ==== Sys2Proof/Machine/Flow.lean ====
section
/-! DEFINITION. Control transfer and skips (41_flow.md). No instruction here writes a register (R120). -/

namespace Sys2Proof.Machine

/-- RET (R121). -/
def execRet (s : State) : Result :=
  match s.pop with
  | some (t, s') => s'.finish (.target t)
  | none => raise (.stackUnderflow s.pc)

/-- JP nnn (R122). -/
def execJp (nnn : Addr12) (s : State) : Result := s.finish (.target (absolute nnn))

/-- CALL nnn: pushes pc + 2 (R123, C1). -/
def execCall (nnn : Addr12) (s : State) : Result :=
  match s.push (s.pc + 2) with
  | some s' => s'.finish (.target (absolute nnn))
  | none => raise (.stackOverflow s.pc)

/-- SE Vx,kk (R124). -/
def execSeImm (x : Nibble) (kk : Byte) (s : State) : Result := s.finish (.skip (s.reg x == kk))

/-- SNE Vx,kk (R125). -/
def execSneImm (x : Nibble) (kk : Byte) (s : State) : Result := s.finish (.skip (s.reg x != kk))

/-- SE Vx,Vy (R126). -/
def execSeReg (x y : Nibble) (s : State) : Result := s.finish (.skip (s.reg x == s.reg y))

/-- SNE Vx,Vy (R127). -/
def execSneReg (x y : Nibble) (s : State) : Result := s.finish (.skip (s.reg x != s.reg y))

/-- JP V0,nnn (R128). -/
def execJpV0 (nnn : Addr12) (s : State) : Result := s.finish (.target (indexedTarget s nnn))

end Sys2Proof.Machine
end

