-- ==== Sys2Proof/Machine/Index.lean ====
section
/-! DEFINITION. The index register and memory transfers (43_index_memory.md). No transfer changes I (R177, D8). -/

namespace Sys2Proof.Machine

/-- LD I,nnn (R170). -/
def execLdI (nnn : Addr12) (s : State) : Result := { s with I := absolute nnn }.finish .seq

/-- ADD I,Vx: wraps modulo 2^16, no flag (R171, D7). -/
def execAddI (x : Nibble) (s : State) : Result := { s with I := s.I + (s.reg x).setWidth 16 }.finish .seq

/-- LD F,Vx (R172; log entry 2). -/
def execLdF (x : Nibble) (s : State) : Result :=
  match glyphAddress s (s.reg x) with
  | (a, s') => { s' with I := a }.finish .seq

/-- LD B,Vx (R173). -/
def execLdB (x : Nibble) (s : State) : Result :=
  s.checkIndex 3 ((s.storeBytes s.I.toNat (decimalDigits (s.reg x))).finish .seq)

/-- LD [I],Vx (R174). -/
def execStm (x : Nibble) (s : State) : Result :=
  s.checkIndex (x.toNat + 1) ((s.storeBytes s.I.toNat (registersUpTo s x)).finish .seq)

/-- V0..Vx replaced by the bytes at I..I+x (R175). -/
def State.loadRegisters (s : State) (x : Nibble) : State :=
  { s with V := Vector.ofFn fun j => if j.val ≤ x.toNat then s.byteAt (s.I.toNat + j.val) else s.V[j.val] }

/-- LD Vx,[I] (R175). -/
def execLdm (x : Nibble) (s : State) : Result :=
  s.checkIndex (x.toNat + 1) ((s.loadRegisters x).finish .seq)

end Sys2Proof.Machine
end

