-- ==== Sys2Proof/Machine/Keys.lean ====
section
/-! DEFINITION. The keypad instructions and the keypress wait (45_keypad.md). -/

namespace Sys2Proof.Machine

/-- SKP Vx (R200; log entry 3). -/
def execSkp (x : Nibble) (s : State) : Result :=
  match keyAt s (s.reg x) with
  | (b, s') => s'.finish (.skip b)

/-- SKNP Vx (R201; log entry 3). -/
def execSknp (x : Nibble) (s : State) : Result :=
  match keyAt s (s.reg x) with
  | (b, s') => s'.finish (.skip (!b))

/-- LD Vx,K, first issue: the keypad is remembered and the pc held (R202). -/
def execLdVxK (x : Nibble) (s : State) : Result := { s with wait := some ⟨x, s.keys⟩ }.finish .hold

/-- The keys pressed now that were not pressed in the snapshot, in increasing order (R203's `fresh`). -/
def freshKeys (keys snap : Keypad) : List (Fin 16) :=
  (List.finRange 16).filter fun k => keys[k.val] && !snap[k.val]

/-- KEY_SELECT on the fresh keys `k :: ks`: the lowest, or any member, and the state after a draw, if one was made (R203). -/
def selectKey (s : State) (k : Fin 16) (ks : List (Fin 16)) : Fin 16 × State :=
  match s.params.keySelect with
  | .lowest => (k, s)
  | .draw => ((k :: ks).getD (Config.keyChoice s.draws % (ks.length + 1)) k, s.drawn)

/-- WaitStep: a Step taken with `wait = Waiting(x, snap)` (R203). -/
def waitStep (w : Waiting) (s : State) : State :=
  match freshKeys s.keys w.snap with
  | [] => { s with wait := some { w with snap := s.keys } }
  | k :: ks =>
    match selectKey s k ks with
    | (key, s') => { s'.setReg w.x (BitVec.ofNat 8 key.val) with wait := none, pc := s.pc + 2 }

end Sys2Proof.Machine
end

