-- ==== Sys2Proof/Machine/Timers.lean ====
section
/-! DEFINITION. The timers, their instructions and the Tick (46_timers.md). -/

namespace Sys2Proof.Machine

/-- LD Vx,DT (R210). -/
def execLdVxDT (x : Nibble) (s : State) : Result := (s.setReg x s.DT).finish .seq

/-- LD DT,Vx (R211). -/
def execLdDTVx (x : Nibble) (s : State) : Result := { s with DT := s.reg x }.finish .seq

/-- LD ST,Vx (R212). -/
def execLdSTVx (x : Nibble) (s : State) : Result := { s with ST := s.reg x }.finish .seq

/-- One timer's decrement: by 1 if currently non-zero (R213). -/
def countDown (t : Byte) : Byte := if t = 0 then 0 else t - 1

/-- Tick (R213): an event of the host, which never raises. -/
def tick (s : State) : State := { s with DT := countDown s.DT, ST := countDown s.ST }

/-- `sound_active` (R215). -/
def State.soundActive (s : State) : Bool := s.ST != 0

end Sys2Proof.Machine
end

