-- ==== Sys2Proof/Machine/Unknown.lean ====
section
/-! DEFINITION. The execution of UNKNOWN (R105). -/

namespace Sys2Proof.Machine

/-- UNKNOWN: `raise InvalidInstruction(pc, w)`, with no state change (R105, R221). -/
def execUnknown (w : Word) (s : State) : Result := raise (.invalidInstruction s.pc w)

end Sys2Proof.Machine
end

