-- ==== Sys2Proof/Machine/Step.lean ====
section
/-! DEFINITION. Step (R100): the keypress wait, or fetch, decode and execute. -/

namespace Sys2Proof.Machine

/-- Step (R100). While a wait is pending it re-checks the keypad and does not fetch (R101); otherwise it fetches (R102),
decodes (R103) and executes. A Tick is no part of it (R100, log entry 12). -/
def step (s : State) : Host.Outcome State Fault Refusal :=
  match s.wait with
  | some w => .next (waitStep w s)
  | none =>
    match s.fetch16 with
    | .error a => raise (.memoryOutOfBounds s.pc a)
    | .ok w => exec (decodeWord s.params.strictDecode w) s

/-- The state with an instruction word where the next step fetches: no wait pending, the pc kept where a fetch succeeds
(pc <= 0xFFE, R55) and at PROGRAM_START otherwise, and the word's two bytes there (log entry 17). -/
def State.withFetchWord (s : State) (nbits w : Nat) : State :=
  let pc := if s.pc.toNat ≤ 0xFFE then s.pc else Config.programStart
  { s with pc := pc, wait := none }.storeBytes pc.toNat (wordBytes (tableWord nbits w))

end Sys2Proof.Machine
end

