-- ==== Sys2Proof/Machine/Session.lean ====
section
/-! DEFINITION. The host interface (R241 to R247, R108, R250, R252): the machine with what the host's protocol remembers,
and the host's operations on it, in any order the host chooses. -/

namespace Sys2Proof.Machine

/-- Whether a Step has been taken since Reset: LoadImage is allowed only before (R252). -/
inductive Phase where
  | fresh
  | running
  deriving DecidableEq, Repr

/-- The machine, the phase, and the sticky fault record that no later operation clears (R229). -/
structure Session where
  machine : State
  phase : Phase
  faulted : Option Fault
  deriving DecidableEq, Repr

/-- The host operations of R241, with their inputs. -/
inductive HostOp where
  | reset
  | loadImage (bytes : List Byte) (dest : Nat)
  | step
  | tick
  | cycle (tickDue : Bool)
  | setKey (k : Nat) (pressed : Bool)
  | readDisplay
  | readSound
  deriving DecidableEq, Repr

/-- The results of R241. -/
inductive Reply where
  | ok
  | err (f : Fault)
  | display (d : Display)
  | sound (active : Bool)
  deriving DecidableEq, Repr

/-- Cycle: Step, then Tick if one is due and the Step succeeded (R108, D13). -/
def cycle (s : State) (tickDue : Bool) : Result :=
  match step s with
  | .next s' => .next (if tickDue then tick s' else s')
  | .fault f => .fault f
  | .refused r => .refused r

/-- Reset: every component of the state at its value of R34 (R250). The parameters are no component of it (R33), and the
draws go on being fresh ones (log entry 15). -/
def hostReset (s : State) : State := { State.resetWith s.params with draws := s.draws }

/-- SetKey: `keys[k] <- pressed`, for k in 0..15 (R242). -/
def setKey (s : State) (k : Nat) (pressed : Bool) : Option State :=
  if h : k < 16 then some { s with keys := s.keys.set k pressed h } else none

/-- LoadImage: the bytes at dest.., or LoadOutOfBounds with nothing written (R252). -/
def loadImage (s : State) (bytes : List Byte) (dest : Nat) : Except Fault State :=
  if dest + bytes.length > Config.memSize then .error (.loadOutOfBounds dest bytes.length)
  else .ok (s.storeBytes dest bytes)

/-- The session an error leaves: the machine unchanged (R228), the first error kept for good (R229). -/
def Session.recordFault (g : Session) (f : Fault) : Session := { g with faulted := g.faulted.or (some f) }

/-- What a Step or a Cycle makes of the session: it is running from now on, whatever the result. -/
def Session.afterStep (g : Session) : Result → Except Refusal (Session × Reply)
  | .next s' => .ok ({ g with machine := s', phase := .running }, .ok)
  | .fault f => .ok (({ g with phase := .running }).recordFault f, .err f)
  | .refused r => .error r

/-- One host operation (R241); an operation that breaks a duty of the host has no move and is refused (R246). -/
def Session.apply (g : Session) : HostOp → Except Refusal (Session × Reply)
  | .reset => .ok ({ g with machine := hostReset g.machine, phase := .fresh }, .ok)
  | .loadImage bytes dest =>
    match g.phase with
    | .running => .error .loadAfterFirstStep
    | .fresh =>
      match loadImage g.machine bytes dest with
      | .ok s' => .ok ({ g with machine := s' }, .ok)
      | .error f => .ok (g.recordFault f, .err f)
  | .step => g.afterStep (step g.machine)
  | .tick => .ok ({ g with machine := tick g.machine }, .ok)
  | .cycle tickDue => g.afterStep (cycle g.machine tickDue)
  | .setKey k pressed =>
    match setKey g.machine k pressed with
    | some s' => .ok ({ g with machine := s' }, .ok)
    | none => .error (.keyOutOfRange k)
  | .readDisplay => .ok (g, .display g.machine.disp)
  | .readSound => .ok (g, .sound g.machine.soundActive)

/-- Host operations one after another, in the order the host chooses (R245, R214). -/
def Session.run (g : Session) : List HostOp → Except Refusal Session
  | [] => .ok g
  | op :: ops =>
    match g.apply op with
    | .ok (g', _) => g'.run ops
    | .error r => .error r

/-- The session at power-on: the machine is created in the reset state (R250), launched with parameters `p`. -/
def Session.boot (p : Params) : Session := ⟨State.resetWith p, .fresh, none⟩

/-- The machine is at a halt loop: no wait, pc = HALT_PC, and `JP HALT_PC` there (R247). -/
def State.atHalt (haltPc : Addr12) (s : State) : Bool :=
  decide (s.wait = none) && s.pc == absolute haltPc &&
    (match s.fetch16 with
     | .ok w => w == wordNNN 0x1#4 haltPc
     | .error _ => false)

/-- A successful end of run: at the halt loop, and no error raised during the run (R247, R229). -/
def Session.ended (haltPc : Addr12) (g : Session) : Bool := g.machine.atHalt haltPc && g.faulted.isNone

end Sys2Proof.Machine
end

