-- ==== Sys2Proof/Safety.lean ====
section
/-! DEFINITION. The terms claims use: what is unchanged, what an instruction may write, when a step stops, and the
invariant of the machine. Each is written from the rules, not from the meanings. -/

namespace Sys2Proof.Machine

/-! ## Frames -/

/-- The components of the state tuple (10_state.md), `sp` and `stack` together, and the model's own two fields. -/
inductive Component where
  | V
  | I
  | pc
  | stack
  | DT
  | ST
  | mem
  | keys
  | disp
  | wait
  | draws
  | params
  deriving DecidableEq, Repr

/-- A component is the same in both states; memory byte by byte, registers one by one. -/
def Unchanged : Component → State → State → Prop
  | .V, s, t => ∀ j : Nibble, t.reg j = s.reg j
  | .I, s, t => t.I = s.I
  | .pc, s, t => t.pc = s.pc
  | .stack, s, t => t.sp = s.sp ∧ t.stack = s.stack
  | .DT, s, t => t.DT = s.DT
  | .ST, s, t => t.ST = s.ST
  | .mem, s, t => ∀ a : Nat, t.byteAt a = s.byteAt a
  | .keys, s, t => t.keys = s.keys
  | .disp, s, t => t.disp = s.disp
  | .wait, s, t => t.wait = s.wait
  | .draws, s, t => t.draws = s.draws
  | .params, s, t => t.params = s.params

/-- Every component but those listed is the same in both states. -/
def FrameExcept (cs : List Component) (s t : State) : Prop := ∀ c : Component, c ∉ cs → Unchanged c s t

/-- Memory in its canonical form: what every run keeps, and what a read after a write rests on. -/
def State.MemOk (s : State) : Prop := Memory.wf (resetByte s.params.fontBase) s.mem = true

/-! ## What an instruction may write (R22, R24, R25, R28 to R31, R51) -/

/-- The components a kind may write. Nothing lists `keys` or `params`. `draws` moves with a free value. -/
def mayWrite : Instr → List Component
  | .cls => [.disp, .pc]
  | .ret | .call _ => [.stack, .pc]
  | .jp _ | .jpV0 _ => [.pc]
  | .seImm _ _ | .sneImm _ _ | .seReg _ _ | .sneReg _ _ => [.pc]
  | .ldImm _ _ | .addImm _ _ | .ldReg _ _ | .orReg _ _ | .andReg _ _ | .xorReg _ _ => [.V, .pc]
  | .addReg _ _ | .subReg _ _ | .shr _ _ | .subnReg _ _ | .shl _ _ => [.V, .pc]
  | .rnd _ _ => [.V, .draws, .pc]
  | .ldI _ | .addI _ => [.I, .pc]
  | .ldF _ => [.I, .draws, .pc]
  | .drw _ _ _ => [.V, .disp, .pc]
  | .skp _ | .sknp _ => [.draws, .pc]
  | .ldVxDT _ => [.V, .pc]
  | .ldVxK _ => [.wait]
  | .ldDTVx _ => [.DT, .pc]
  | .ldSTVx _ => [.ST, .pc]
  | .ldB _ | .stm _ => [.mem, .pc]
  | .ldm _ => [.V, .pc]
  | .unknown _ => []

/-- The `writes` column of R22: whether a kind writes register `j`. LD Vx,K writes Vx on completion, in the wait's own step. -/
def writesReg : Instr → Nibble → Bool
  | .ldImm x _, j | .addImm x _, j | .ldReg x _, j | .orReg x _, j | .andReg x _, j | .xorReg x _, j => j == x
  | .rnd x _, j | .ldVxDT x, j => j == x
  | .addReg x _, j | .subReg x _, j | .subnReg x _, j | .shr x _, j | .shl x _, j => j == x || j == 15#4
  | .drw _ _ _, j => j == 15#4
  | .ldm x, j => decide (j.toNat ≤ x.toNat)
  | .cls, _ | .ret, _ | .jp _, _ | .call _, _ | .seImm _ _, _ | .sneImm _ _, _ | .seReg _ _, _ | .sneReg _ _, _ => false
  | .jpV0 _, _ | .ldI _, _ | .addI _, _ | .ldF _, _ | .ldB _, _ | .stm _, _ | .skp _, _ | .sknp _, _ => false
  | .ldVxK _, _ | .ldDTVx _, _ | .ldSTVx _, _ | .unknown _, _ => false

/-! ## When an instruction stops (R221 to R226) -/

/-- The error a data access of the bytes I .. I+n-1 raises: MemoryOutOfBounds at the lowest failing address (R53, R224). -/
def accessError (s : State) (n : Nat) : Option Fault :=
  if n ≠ 0 ∧ s.I.toNat + n - 1 > 0xFFF then some (.memoryOutOfBounds s.pc (max s.I.toNat 0x1000)) else none

/-- The executed instruction's own error, if it has one in this state (R225, R226). -/
def ownError (s : State) : Instr → Option Fault
  | .unknown w => some (.invalidInstruction s.pc w)
  | .call _ => if s.sp.val = 16 then some (.stackOverflow s.pc) else none
  | .ret => if s.sp.val = 0 then some (.stackUnderflow s.pc) else none
  | .drw _ _ n => accessError s n.toNat
  | .ldB _ => accessError s 3
  | .stm x | .ldm x => accessError s (x.toNat + 1)
  | .cls | .jp _ | .seImm _ _ | .sneImm _ _ | .seReg _ _ | .sneReg _ _ | .jpV0 _ => none
  | .ldImm _ _ | .addImm _ _ | .ldReg _ _ | .orReg _ _ | .andReg _ _ | .xorReg _ _ | .addReg _ _ | .subReg _ _ => none
  | .shr _ _ | .subnReg _ _ | .shl _ _ | .rnd _ _ | .ldI _ | .addI _ | .ldF _ => none
  | .skp _ | .sknp _ | .ldVxDT _ | .ldVxK _ | .ldDTVx _ | .ldSTVx _ => none

/-- A state whose Step succeeds. -/
def State.CanStep (s : State) : Prop := ∃ t, step s = .next t

/-! ## The invariant -/

/-- What holds at reset and every operation keeps: memory is canonical; the pc is at most 0x10FE and a live return address at
most 0x1000 (R106); and a pending wait stands at the LD Vx,K that began it (R101, C8). -/
structure State.Inv (s : State) : Prop where
  mem : s.MemOk
  pc : s.pc.toNat ≤ 0x10FE
  stack : ∀ (j : Nat) (h : j < 16), j < s.sp.val → s.stack[j].toNat ≤ 0x1000
  wait : ∀ w : Waiting, s.wait = some w →
    ∃ v : Word, s.fetch16 = .ok v ∧ decodeWord s.params.strictDecode v = .ldVxK w.x

/-- The invariant of a session: the machine's, and before the first Step nothing waits. -/
structure Session.Inv (g : Session) : Prop where
  machine : g.machine.Inv
  fresh : g.phase = .fresh → g.machine.wait = none

end Sys2Proof.Machine
end

