-- ==== Sys2Proof/Certificates/Slice0/Obligations.lean ====
section
/-! DEFINITION. The statements for the provers. Each docstring names the rule of spec/ it formalises. -/

open Sys2Proof Sys2Proof.Machine

/-! ## Encoding -/

/-- 30_encoding.md section 3: decoding the word of a well-formed instruction gives the instruction back, for every operand
value and for both settings of STRICT_DECODE. -/
def Obligations.DecodeInvertsEncode : Prop :=
  ∀ (strict : Bool) (i : Instr), i.wf strict = true → decodeWord strict (encode i) = i

/-- 30_encoding.md sections 3 and 5: the decoder gives only well-formed instructions; a strictly decoded word is encoded back
to itself, and so is any word without a don't-care bit set. -/
def Obligations.EncodeInvertsDecode : Prop :=
  (∀ (strict : Bool) (w : Word), (decodeWord strict w).wf strict = true) ∧
  (∀ w : Word, encode (decodeWord true w) = w) ∧
  (∀ w : Word, hasDontCareBit w = false → encode (decodeWord false w) = w)

/-- 30_encoding.md section 3: a word decodes to UNKNOWN exactly when its group and selector are in the table of R78, and the
instruction carries that word. -/
def Obligations.UnknownSpaceIsExact : Prop :=
  (∀ w : Word, decodeWord false w = .unknown w ↔
    (group w = 0x0 ∧ imm8 w ≠ 0xE0 ∧ imm8 w ≠ 0xEE) ∨
    (group w = 0x8 ∧ nibble4 w ∈ [0x8#4, 0x9, 0xA, 0xB, 0xC, 0xD, 0xF]) ∨
    (group w = 0xE ∧ imm8 w ≠ 0x9E ∧ imm8 w ≠ 0xA1) ∨
    (group w = 0xF ∧ imm8 w ∉ [0x07#8, 0x0A, 0x15, 0x18, 0x1E, 0x29, 0x33, 0x55, 0x65])) ∧
  (∀ v w : Word, decodeWord false w = .unknown v → v = w)

/-- 30_encoding.md section 4 (R81), with section 3 (R76): a row's match and mask select its kind; UNKNOWN is what no row matches; no word matches two rows. -/
def Obligations.OpcodeTableSelectsKind : Prop :=
  (∀ (w : Word) (row : String × Word × Word), row ∈ opcodeTable →
    (w &&& row.2.2 = row.2.1 ↔ mnemonic (decodeWord false w) = row.1)) ∧
  (∀ w : Word, mnemonic (decodeWord false w) = "UNKNOWN" ↔ ∀ row ∈ opcodeTable, w &&& row.2.2 ≠ row.2.1) ∧
  (∀ (w : Word) (row row' : String × Word × Word), row ∈ opcodeTable → row' ∈ opcodeTable →
    w &&& row.2.2 = row.2.1 → w &&& row'.2.2 = row'.2.1 → row = row')

/-- 30_encoding.md section 3, the spec's own reading D2: the bits the classifier does not examine never change the kind. -/
def Obligations.UnexaminedBitsDoNotSelect : Prop :=
  (∀ (x x' : Nibble) (lo : Byte),
    mnemonic (decodeWord false (wordXKK 0x0 x lo)) = mnemonic (decodeWord false (wordXKK 0x0 x' lo))) ∧
  (∀ x y n : Nibble, decodeWord false (wordXYN 0x5 x y n) = .seReg x y) ∧
  (∀ x y n : Nibble, decodeWord false (wordXYN 0x9 x y n) = .sneReg x y) ∧
  (∀ (g x x' : Nibble) (lo : Byte), g = 0xE ∨ g = 0xF →
    mnemonic (decodeWord false (wordXKK g x lo)) = mnemonic (decodeWord false (wordXKK g x' lo)) ∧
    regX (wordXKK g x lo) = x) ∧
  (∀ x x' y y' n : Nibble,
    mnemonic (decodeWord false (wordXYN 0x8 x y n)) = mnemonic (decodeWord false (wordXYN 0x8 x' y' n)))

/-- R71: the six views of a word, bit by bit. -/
def Obligations.ViewsAreBitFields : Prop :=
  ∀ (w : Word) (b : Nat),
    (b < 4 → (group w).getLsbD b = w.getLsbD (12 + b) ∧ (regX w).getLsbD b = w.getLsbD (8 + b) ∧
      (regY w).getLsbD b = w.getLsbD (4 + b) ∧ (nibble4 w).getLsbD b = w.getLsbD b) ∧
    (b < 8 → (imm8 w).getLsbD b = w.getLsbD b) ∧
    (b < 12 → (addr12 w).getLsbD b = w.getLsbD b)

/-- 95_test_vectors.md: words of every family, written out there, decode to the instructions they stand for. -/
def Obligations.SampleWordsDecode : Prop :=
  decodeWord false 0x00E0 = .cls ∧ decodeWord false 0x00EE = .ret ∧ decodeWord false 0x2210 = .call 0x210 ∧
  decodeWord false 0xBF01 = .jpV0 0xF01 ∧ decodeWord false 0x3342 = .seImm 3 0x42 ∧ decodeWord false 0x8124 = .addReg 1 2 ∧
  decodeWord false 0xC30F = .rnd 3 0x0F ∧ decodeWord false 0xF255 = .stm 2 ∧ decodeWord false 0xD015 = .drw 0 1 5 ∧
  decodeWord false 0xE1A1 = .sknp 1 ∧ decodeWord false 0xF30A = .ldVxK 3 ∧ decodeWord false 0xF218 = .ldSTVx 2 ∧
  decodeWord false 0x8008 = .unknown 0x8008

/-! ## The step -/

/-- 40_fetch_cycle.md sections 1 to 3: with no wait pending and a fetch that succeeds, a step is the execution of the decoded instruction, on the
state as it is; nothing else happens around it. -/
def Obligations.StepRunsDecodedInstruction : Prop :=
  ∀ (s : State) (i : Instr), s.wait = none → s.pc.toNat ≤ 0xFFE →
    decodeWord s.params.strictDecode (s.byteAt s.pc.toNat ++ s.byteAt (s.pc.toNat + 1)) = i → step s = exec i s

/-- R55, R102: above 0xFFE the fetch raises MemoryOutOfBounds, at pc or, for pc = 0xFFF, at pc + 1; otherwise it does not, and
gives the big-endian word at pc. -/
def Obligations.FetchIsBigEndianAndBounded : Prop :=
  ∀ s : State, s.wait = none →
    (s.pc.toNat > 0xFFF → step s = .fault (.memoryOutOfBounds s.pc s.pc.toNat)) ∧
    (s.pc.toNat = 0xFFF → step s = .fault (.memoryOutOfBounds s.pc (s.pc.toNat + 1))) ∧
    (s.pc.toNat < 0xFFF → ∃ w : Word, s.fetch16 = .ok w ∧
      w.toNat = 256 * (s.byteAt s.pc.toNat).toNat + (s.byteAt (s.pc.toNat + 1)).toNat)

/-- R109: the next-pc request each kind makes. -/
def Obligations.EachKindMakesItsPcRequest : Prop :=
  ∀ (s t : State) (i : Instr), exec i s = .next t →
    match i with
    | .seImm _ _ | .sneImm _ _ | .seReg _ _ | .sneReg _ _ | .skp _ | .sknp _ => t.pc = s.pc + 2 ∨ t.pc = s.pc + 4
    | .jp nnn | .call nnn => t.pc.toNat = nnn.toNat
    | .jpV0 nnn => t.pc.toNat = (s.reg 0#4).toNat + nnn.toNat
    | .ret => ∃ (j : Nat) (h : j < 16), s.sp.val = j + 1 ∧ t.pc = s.stack[j]
    | .ldVxK _ => t.pc = s.pc
    | .unknown _ => False
    | _ => t.pc = s.pc + 2

/-- R203: a step while waiting. -/
def Obligations.WaitStepRechecksKeypad : Prop :=
  ∀ (s : State) (x : Nibble) (snap : Keypad), s.wait = some ⟨x, snap⟩ → ∃ t : State, step s = .next t ∧
    ((∀ k : Fin 16, ¬ (s.keys[k.val] = true ∧ snap[k.val] = false)) →
      t.wait = some ⟨x, s.keys⟩ ∧ FrameExcept [.wait] s t) ∧
    ((∃ k : Fin 16, s.keys[k.val] = true ∧ snap[k.val] = false) →
      t.wait = none ∧ t.pc = s.pc + 2 ∧
      (∃ k : Fin 16, s.keys[k.val] = true ∧ snap[k.val] = false ∧ (t.reg x).toNat = k.val ∧
        (s.params.keySelect = .lowest → t.draws = s.draws ∧
          ∀ j : Fin 16, s.keys[j.val] = true → snap[j.val] = false → k.val ≤ j.val)) ∧
      (∀ j : Nibble, j ≠ x → t.reg j = s.reg j) ∧ FrameExcept [.V, .pc, .wait, .draws] s t)

/-! ## Control transfer and skips -/

/-- R121: RET. -/
def Obligations.ReturnPopsTheStack : Prop :=
  (∀ (strict : Bool), decodeWord strict 0x00EE = .ret) ∧ (∀ z : Nibble, decodeWord false (wordXKK 0x0 z 0xEE) = .ret) ∧
  ∀ s : State,
    (s.sp.val = 0 → exec .ret s = .fault (.stackUnderflow s.pc)) ∧
    (∀ (j : Nat) (h : j < 16), s.sp.val = j + 1 → ∃ t : State, exec .ret s = .next t ∧
      t.pc = s.stack[j] ∧ t.sp.val = j ∧ t.stack = s.stack ∧ FrameExcept [.pc, .stack] s t)

/-- R122, R128: JP nnn and JP V0,nnn. The sum of JP V0 is not reduced. -/
def Obligations.JumpsSetThePc : Prop :=
  (∀ (strict : Bool) (nnn : Addr12), decodeWord strict (wordNNN 0x1 nnn) = .jp nnn ∧
    decodeWord strict (wordNNN 0xB nnn) = .jpV0 nnn) ∧
  ∀ (nnn : Addr12) (s : State),
    (∃ t : State, exec (.jp nnn) s = .next t ∧ t.pc.toNat = nnn.toNat ∧ FrameExcept [.pc] s t) ∧
    (∃ t : State, exec (.jpV0 nnn) s = .next t ∧ t.pc.toNat = (s.reg 0#4).toNat + nnn.toNat ∧ FrameExcept [.pc] s t)

/-- R123: CALL pushes the address of the next instruction. -/
def Obligations.CallPushesReturnAddress : Prop :=
  (∀ (strict : Bool) (nnn : Addr12), decodeWord strict (wordNNN 0x2 nnn) = .call nnn) ∧
  ∀ (nnn : Addr12) (s : State),
    (s.sp.val = 16 → exec (.call nnn) s = .fault (.stackOverflow s.pc)) ∧
    (∀ h : s.sp.val < 16, ∃ t : State, exec (.call nnn) s = .next t ∧
      t.pc.toNat = nnn.toNat ∧ t.sp.val = s.sp.val + 1 ∧ t.stack[s.sp.val] = s.pc + 2 ∧
      (∀ (j : Nat) (hj : j < 16), j ≠ s.sp.val → t.stack[j] = s.stack[j]) ∧ FrameExcept [.pc, .stack] s t)

/-- 95_test_vectors.md W5: a RET executed in the state a CALL left comes back to the address after the CALL, with the stack
depth of before, at every depth that can take the CALL. -/
def Obligations.CallThenReturnComesBack : Prop :=
  ∀ (nnn : Addr12) (s : State), s.sp.val < 16 → ∃ t u : State, exec (.call nnn) s = .next t ∧ exec .ret t = .next u ∧
    u.pc = s.pc + 2 ∧ u.sp = s.sp ∧ FrameExcept [.pc, .stack] s u

/-- R124, R125: SE Vx,kk and SNE Vx,kk. -/
def Obligations.ImmediateSkips : Prop :=
  (∀ (strict : Bool) (x : Nibble) (kk : Byte), decodeWord strict (wordXKK 0x3 x kk) = .seImm x kk ∧
    decodeWord strict (wordXKK 0x4 x kk) = .sneImm x kk) ∧
  ∀ (x : Nibble) (kk : Byte) (s : State),
    (∃ t : State, exec (.seImm x kk) s = .next t ∧ (s.reg x = kk → t.pc = s.pc + 4) ∧ (s.reg x ≠ kk → t.pc = s.pc + 2) ∧
      FrameExcept [.pc] s t) ∧
    (∃ t : State, exec (.sneImm x kk) s = .next t ∧ (s.reg x ≠ kk → t.pc = s.pc + 4) ∧ (s.reg x = kk → t.pc = s.pc + 2) ∧
      FrameExcept [.pc] s t)

/-- R126, R127: SE Vx,Vy and SNE Vx,Vy, for every value of the ignored low nibble. -/
def Obligations.RegisterSkips : Prop :=
  (∀ x y n : Nibble, decodeWord false (wordXYN 0x5 x y n) = .seReg x y ∧ decodeWord false (wordXYN 0x9 x y n) = .sneReg x y) ∧
  ∀ (x y : Nibble) (s : State),
    (∃ t : State, exec (.seReg x y) s = .next t ∧ (s.reg x = s.reg y → t.pc = s.pc + 4) ∧
      (s.reg x ≠ s.reg y → t.pc = s.pc + 2) ∧ FrameExcept [.pc] s t) ∧
    (∃ t : State, exec (.sneReg x y) s = .next t ∧ (s.reg x ≠ s.reg y → t.pc = s.pc + 4) ∧
      (s.reg x = s.reg y → t.pc = s.pc + 2) ∧ FrameExcept [.pc] s t)

/-! ## Register arithmetic and logic -/

/-- R141, R143: the register loads. -/
def Obligations.RegisterLoads : Prop :=
  (∀ (strict : Bool) (x y : Nibble) (kk : Byte), decodeWord strict (wordXKK 0x6 x kk) = .ldImm x kk ∧
    decodeWord strict (wordXYN 0x8 x y 0x0) = .ldReg x y) ∧
  ∀ (x y : Nibble) (kk : Byte) (s : State),
    (∃ t : State, exec (.ldImm x kk) s = .next t ∧ t.reg x = kk ∧ (∀ j, j ≠ x → t.reg j = s.reg j) ∧ t.pc = s.pc + 2 ∧
      FrameExcept [.V, .pc] s t) ∧
    (∃ t : State, exec (.ldReg x y) s = .next t ∧ t.reg x = s.reg y ∧ (∀ j, j ≠ x → t.reg j = s.reg j) ∧ t.pc = s.pc + 2 ∧
      FrameExcept [.V, .pc] s t)

/-- R142: ADD Vx,kk wraps and writes no flag. -/
def Obligations.AddImmediateWraps : Prop :=
  (∀ (strict : Bool) (x : Nibble) (kk : Byte), decodeWord strict (wordXKK 0x7 x kk) = .addImm x kk) ∧
  ∀ (x : Nibble) (kk : Byte) (s : State), ∃ t : State, exec (.addImm x kk) s = .next t ∧
    (t.reg x).toNat = ((s.reg x).toNat + kk.toNat) % 256 ∧ (∀ j, j ≠ x → t.reg j = s.reg j) ∧ t.pc = s.pc + 2 ∧
    FrameExcept [.V, .pc] s t

/-- R144, R145, R146: OR, AND and XOR, bit by bit; VF changes only as the destination. -/
def Obligations.LogicIsBitwise : Prop :=
  (∀ (strict : Bool) (x y : Nibble), decodeWord strict (wordXYN 0x8 x y 0x1) = .orReg x y ∧
    decodeWord strict (wordXYN 0x8 x y 0x2) = .andReg x y ∧ decodeWord strict (wordXYN 0x8 x y 0x3) = .xorReg x y) ∧
  ∀ (x y : Nibble) (s : State),
    (∃ t : State, exec (.orReg x y) s = .next t ∧
      (∀ b : Nat, (t.reg x).getLsbD b = ((s.reg x).getLsbD b || (s.reg y).getLsbD b)) ∧
      (∀ j, j ≠ x → t.reg j = s.reg j) ∧ t.pc = s.pc + 2 ∧ FrameExcept [.V, .pc] s t) ∧
    (∃ t : State, exec (.andReg x y) s = .next t ∧
      (∀ b : Nat, (t.reg x).getLsbD b = ((s.reg x).getLsbD b && (s.reg y).getLsbD b)) ∧
      (∀ j, j ≠ x → t.reg j = s.reg j) ∧ t.pc = s.pc + 2 ∧ FrameExcept [.V, .pc] s t) ∧
    (∃ t : State, exec (.xorReg x y) s = .next t ∧
      (∀ b : Nat, (t.reg x).getLsbD b = ((s.reg x).getLsbD b ^^ (s.reg y).getLsbD b)) ∧
      (∀ j, j ≠ x → t.reg j = s.reg j) ∧ t.pc = s.pc + 2 ∧ FrameExcept [.V, .pc] s t)

/-- R149: ADD Vx,Vy; for x = 15 VF_ORDER decides whether the sum or the carry stays in VF. -/
def Obligations.AddRegistersSetsCarry : Prop :=
  (∀ (strict : Bool) (x y : Nibble), decodeWord strict (wordXYN 0x8 x y 0x4) = .addReg x y) ∧
  ∀ (x y : Nibble) (s : State), ∃ t : State, exec (.addReg x y) s = .next t ∧
    (x ≠ 15#4 ∨ s.params.vfOrder = .resultLast → (t.reg x).toNat = ((s.reg x).toNat + (s.reg y).toNat) % 256) ∧
    (x ≠ 15#4 ∨ s.params.vfOrder = .flagLast →
      (t.reg 15#4).toNat = if (s.reg x).toNat + (s.reg y).toNat > 255 then 1 else 0) ∧
    (∀ j, j ≠ x → j ≠ 15#4 → t.reg j = s.reg j) ∧ t.pc = s.pc + 2 ∧ FrameExcept [.V, .pc] s t

/-- R150, R152: SUB and SUBN, with the no-borrow flag. -/
def Obligations.SubtractionsSetNoBorrow : Prop :=
  (∀ (strict : Bool) (x y : Nibble), decodeWord strict (wordXYN 0x8 x y 0x5) = .subReg x y ∧
    decodeWord strict (wordXYN 0x8 x y 0x7) = .subnReg x y) ∧
  ∀ (x y : Nibble) (s : State),
    (∃ t : State, exec (.subReg x y) s = .next t ∧
      (x ≠ 15#4 ∨ s.params.vfOrder = .resultLast → (t.reg x).toNat = ((s.reg x).toNat + 256 - (s.reg y).toNat) % 256) ∧
      (x ≠ 15#4 ∨ s.params.vfOrder = .flagLast → (t.reg 15#4).toNat = if (s.reg x).toNat ≥ (s.reg y).toNat then 1 else 0) ∧
      (∀ j, j ≠ x → j ≠ 15#4 → t.reg j = s.reg j) ∧ t.pc = s.pc + 2 ∧ FrameExcept [.V, .pc] s t) ∧
    (∃ t : State, exec (.subnReg x y) s = .next t ∧
      (x ≠ 15#4 ∨ s.params.vfOrder = .resultLast → (t.reg x).toNat = ((s.reg y).toNat + 256 - (s.reg x).toNat) % 256) ∧
      (x ≠ 15#4 ∨ s.params.vfOrder = .flagLast → (t.reg 15#4).toNat = if (s.reg y).toNat ≥ (s.reg x).toNat then 1 else 0) ∧
      (∀ j, j ≠ x → j ≠ 15#4 → t.reg j = s.reg j) ∧ t.pc = s.pc + 2 ∧ FrameExcept [.V, .pc] s t)

/-- R151, R153: SHR and SHL shift Vx by one and put the bit shifted out into VF; the y field changes nothing. -/
def Obligations.ShiftsSetTheBitShiftedOut : Prop :=
  (∀ x y : Nibble, decodeWord false (wordXYN 0x8 x y 0x6) = .shr x y ∧ decodeWord false (wordXYN 0x8 x y 0xE) = .shl x y) ∧
  ∀ (x y : Nibble) (s : State),
    (∃ t : State, exec (.shr x y) s = .next t ∧
      (x ≠ 15#4 ∨ s.params.vfOrder = .resultLast → (t.reg x).toNat = (s.reg x).toNat / 2) ∧
      (x ≠ 15#4 ∨ s.params.vfOrder = .flagLast → (t.reg 15#4).toNat = (s.reg x).toNat % 2) ∧
      (∀ j, j ≠ x → j ≠ 15#4 → t.reg j = s.reg j) ∧ t.pc = s.pc + 2 ∧ FrameExcept [.V, .pc] s t) ∧
    (∃ t : State, exec (.shl x y) s = .next t ∧
      (x ≠ 15#4 ∨ s.params.vfOrder = .resultLast → (t.reg x).toNat = (s.reg x).toNat * 2 % 256) ∧
      (x ≠ 15#4 ∨ s.params.vfOrder = .flagLast → (t.reg 15#4).toNat = (s.reg x).toNat / 128) ∧
      (∀ j, j ≠ x → j ≠ 15#4 → t.reg j = s.reg j) ∧ t.pc = s.pc + 2 ∧ FrameExcept [.V, .pc] s t)

/-- 42_alu.md, RND: a free byte, masked, and the next execution takes another; nothing is claimed of the byte. That the bytes are
numbered by a counter is the model's choice (log entry 1). -/
def Obligations.RandomIsMasked : Prop :=
  (∀ (strict : Bool) (x : Nibble) (kk : Byte), decodeWord strict (wordXKK 0xC x kk) = .rnd x kk) ∧
  ∀ (x : Nibble) (kk : Byte) (s : State), ∃ t : State, exec (.rnd x kk) s = .next t ∧
    (∀ b : Nat, (t.reg x).getLsbD b = ((Config.randomByte s.draws).getLsbD b && kk.getLsbD b)) ∧
    (∀ j, j ≠ x → t.reg j = s.reg j) ∧ t.draws = s.draws + 1 ∧ t.pc = s.pc + 2 ∧ FrameExcept [.V, .draws, .pc] s t

/-! ## The index register and memory transfers -/

/-- R170, R171: LD I,nnn and ADD I,Vx. -/
def Obligations.IndexLoadAndAdd : Prop :=
  (∀ (strict : Bool) (x : Nibble) (nnn : Addr12), decodeWord strict (wordNNN 0xA nnn) = .ldI nnn ∧
    decodeWord strict (wordXKK 0xF x 0x1E) = .addI x) ∧
  ∀ (x : Nibble) (nnn : Addr12) (s : State),
    (∃ t : State, exec (.ldI nnn) s = .next t ∧ t.I.toNat = nnn.toNat ∧ t.pc = s.pc + 2 ∧ FrameExcept [.I, .pc] s t) ∧
    (∃ t : State, exec (.addI x) s = .next t ∧ t.I.toNat = (s.I.toNat + (s.reg x).toNat) % 65536 ∧ t.pc = s.pc + 2 ∧
      FrameExcept [.I, .pc] s t)

/-- R172: LD F,Vx, for a digit and, by FONT_DIGIT_POLICY, for any other byte: under `draw` it completes and I may be any value. -/
def Obligations.GlyphAddressLoads : Prop :=
  (∀ (strict : Bool) (x : Nibble), decodeWord strict (wordXKK 0xF x 0x29) = .ldF x) ∧
  ∀ (x : Nibble) (s : State), ∃ t : State, exec (.ldF x) s = .next t ∧
    ((s.reg x).toNat ≤ 0xF → t.I = s.params.fontBase + BitVec.ofNat 16 (5 * (s.reg x).toNat) ∧ t.draws = s.draws) ∧
    ((s.reg x).toNat > 0xF → s.params.fontDigitPolicy = .mask →
      t.I = s.params.fontBase + BitVec.ofNat 16 (5 * ((s.reg x).toNat % 16)) ∧ t.draws = s.draws) ∧
    t.pc = s.pc + 2 ∧ FrameExcept [.I, .draws, .pc] s t

/-- R173: LD B,Vx stores the decimal digits at I, I+1, I+2, and nothing else changes; with an address above 0xFFF it raises
MemoryOutOfBounds at the lowest such address. -/
def Obligations.DecimalDigitsAreStored : Prop :=
  (∀ (strict : Bool) (x : Nibble), decodeWord strict (wordXKK 0xF x 0x33) = .ldB x) ∧
  ∀ (x : Nibble) (s : State),
    (s.I.toNat + 2 > 0xFFF → exec (.ldB x) s =
      .fault (.memoryOutOfBounds s.pc (if s.I.toNat > 0xFFF then s.I.toNat else 0x1000))) ∧
    (s.MemOk → s.I.toNat + 2 ≤ 0xFFF → ∃ t : State, exec (.ldB x) s = .next t ∧
      (t.byteAt s.I.toNat).toNat = (s.reg x).toNat / 100 ∧
      (t.byteAt (s.I.toNat + 1)).toNat = (s.reg x).toNat / 10 % 10 ∧
      (t.byteAt (s.I.toNat + 2)).toNat = (s.reg x).toNat % 10 ∧
      (∀ a, a < s.I.toNat ∨ s.I.toNat + 2 < a → t.byteAt a = s.byteAt a) ∧
      t.pc = s.pc + 2 ∧ FrameExcept [.mem, .pc] s t)

/-- R174: LD [I],Vx stores V0..Vx at I..I+x, I unchanged, and nothing else changes. -/
def Obligations.RegistersAreDumped : Prop :=
  (∀ (strict : Bool) (x : Nibble), decodeWord strict (wordXKK 0xF x 0x55) = .stm x) ∧
  ∀ (x : Nibble) (s : State),
    (s.I.toNat + x.toNat > 0xFFF → exec (.stm x) s =
      .fault (.memoryOutOfBounds s.pc (if s.I.toNat > 0xFFF then s.I.toNat else 0x1000))) ∧
    (s.MemOk → s.I.toNat + x.toNat ≤ 0xFFF → ∃ t : State, exec (.stm x) s = .next t ∧
      (∀ j : Nibble, j.toNat ≤ x.toNat → t.byteAt (s.I.toNat + j.toNat) = s.reg j) ∧
      (∀ a, a < s.I.toNat ∨ s.I.toNat + x.toNat < a → t.byteAt a = s.byteAt a) ∧
      t.pc = s.pc + 2 ∧ FrameExcept [.mem, .pc] s t)

/-- R175: LD Vx,[I] loads V0..Vx from I..I+x, I and the other registers unchanged. -/
def Obligations.RegistersAreLoaded : Prop :=
  (∀ (strict : Bool) (x : Nibble), decodeWord strict (wordXKK 0xF x 0x65) = .ldm x) ∧
  ∀ (x : Nibble) (s : State),
    (s.I.toNat + x.toNat > 0xFFF → exec (.ldm x) s =
      .fault (.memoryOutOfBounds s.pc (if s.I.toNat > 0xFFF then s.I.toNat else 0x1000))) ∧
    (s.I.toNat + x.toNat ≤ 0xFFF → ∃ t : State, exec (.ldm x) s = .next t ∧
      (∀ j : Nibble, j.toNat ≤ x.toNat → t.reg j = s.byteAt (s.I.toNat + j.toNat)) ∧
      (∀ j : Nibble, x.toNat < j.toNat → t.reg j = s.reg j) ∧ t.pc = s.pc + 2 ∧ FrameExcept [.V, .pc] s t)

/-- 43_index_memory.md section 3: what LD [I],Vx stores, LD Vx,[I] with the same I and x loads back. -/
def Obligations.DumpThenLoadRestores : Prop :=
  ∀ (x : Nibble) (s : State) (regs : Vector Byte 16), s.MemOk → s.I.toNat + x.toNat ≤ 0xFFF →
    ∃ t u : State, exec (.stm x) s = .next t ∧ exec (.ldm x) { t with V := regs } = .next u ∧
      (∀ j : Nibble, j.toNat ≤ x.toNat → u.reg j = s.reg j) ∧ u.I = s.I

/-- 20_memory.md section 4 (R62, which the spec derives): a byte that LD [I],Vx stores is what the next step fetches: where V0..Vx cover the two bytes after the instruction,
the next step executes the instruction that those registers spell. -/
def Obligations.StoredCodeIsFetched : Prop :=
  ∀ (x j : Nibble) (s t : State), s.MemOk → s.wait = none → s.pc.toNat ≤ 0xFFC → j.toNat < x.toNat →
    s.I.toNat + j.toNat = s.pc.toNat + 2 → exec (.stm x) s = .next t →
    step t = exec (decodeWord s.params.strictDecode (s.reg j ++ s.reg (j + 1))) t

/-! ## The display -/

/-- R190: CLS. -/
def Obligations.ClearTurnsAllPixelsOff : Prop :=
  (∀ strict : Bool, decodeWord strict 0x00E0 = .cls) ∧ (∀ z : Nibble, decodeWord false (wordXKK 0x0 z 0xE0) = .cls) ∧
  ∀ s : State, ∃ t : State, exec .cls s = .next t ∧
    (∀ (row : Fin 32) (col : Fin 64), pixel t.disp row col = false) ∧ t.pc = s.pc + 2 ∧ FrameExcept [.disp, .pc] s t

/-- R191: DRW XORs each sprite bit onto its wrapped pixel, leaves the other pixels, and sets VF exactly on a collision; with a
sprite byte out of bounds it raises MemoryOutOfBounds at the lowest such address. -/
def Obligations.DrawXorsTheSprite : Prop :=
  (∀ (strict : Bool) (x y n : Nibble), decodeWord strict (wordXYN 0xD x y n) = .drw x y n) ∧
  ∀ (x y n : Nibble) (s : State),
    (n ≠ 0 → s.I.toNat + n.toNat - 1 > 0xFFF → exec (.drw x y n) s =
      .fault (.memoryOutOfBounds s.pc (if s.I.toNat > 0xFFF then s.I.toNat else 0x1000))) ∧
    (n = 0 ∨ s.I.toNat + n.toNat - 1 ≤ 0xFFF → ∃ t : State, exec (.drw x y n) s = .next t ∧
      (∀ r c : Nat, r < n.toNat → c < 8 → ∀ (row : Fin 32) (col : Fin 64),
        row.val = ((s.reg y).toNat + r) % 32 → col.val = ((s.reg x).toNat + c) % 64 →
        pixel t.disp row col = (pixel s.disp row col ^^ (s.byteAt (s.I.toNat + r)).getLsbD (7 - c))) ∧
      (∀ (row : Fin 32) (col : Fin 64),
        (∀ r c : Nat, r < n.toNat → c < 8 →
          ¬ (row.val = ((s.reg y).toNat + r) % 32 ∧ col.val = ((s.reg x).toNat + c) % 64)) →
        pixel t.disp row col = pixel s.disp row col) ∧
      (t.reg 15#4 = 1 ∨ t.reg 15#4 = 0) ∧
      (t.reg 15#4 = 1 ↔ ∃ (row : Fin 32) (col : Fin 64), pixel s.disp row col = true ∧ pixel t.disp row col = false) ∧
      (∀ j, j ≠ 15#4 → t.reg j = s.reg j) ∧ t.pc = s.pc + 2 ∧ FrameExcept [.V, .disp, .pc] s t)

/-- 44_display.md, R191 applied twice: drawing twice gives back the display; the second draw collides exactly where a 1 bit of the
sprite meets a pixel that the first draw left on, which on a display that was off is wherever the sprite has a 1 bit. R192's
"that is, when the sprite has at least one 1 bit" is stated for that display only: on a lit one R191 contradicts it (log
entry 21). -/
def Obligations.DrawingTwiceRestoresTheDisplay : Prop :=
  ∀ (x y n : Nibble) (s t : State), x ≠ 15#4 → y ≠ 15#4 → exec (.drw x y n) s = .next t →
    ∃ u : State, exec (.drw x y n) t = .next u ∧ u.disp = s.disp ∧
      (u.reg 15#4 = 1 ↔ ∃ r c : Nat, r < n.toNat ∧ c < 8 ∧ (s.byteAt (s.I.toNat + r)).getLsbD (7 - c) = true ∧
        pixel t.disp (wrapRow ((s.reg y).toNat + r)) (wrapCol ((s.reg x).toNat + c)) = true) ∧
      ((∀ (row : Fin 32) (col : Fin 64), pixel s.disp row col = false) →
        (u.reg 15#4 = 1 ↔ ∃ r c : Nat, r < n.toNat ∧ c < 8 ∧ (s.byteAt (s.I.toNat + r)).getLsbD (7 - c) = true))

/-! ## The keypad -/

/-- R200, R201, R204: SKP and SKNP; an index that names no key reads as KEY_INDEX_POLICY says, under `draw` as any Boolean. -/
def Obligations.KeySkips : Prop :=
  (∀ (strict : Bool) (x : Nibble), decodeWord strict (wordXKK 0xE x 0x9E) = .skp x ∧
    decodeWord strict (wordXKK 0xE x 0xA1) = .sknp x) ∧
  ∀ (x : Nibble) (s : State), ∃ (pressed : Bool) (t u : State),
    ((s.reg x).toNat ≤ 0xF ∨ s.params.keyIndexPolicy = .mask →
      (∀ k : Fin 16, k.val = (s.reg x).toNat % 16 → pressed = s.keys[k.val]) ∧ t.draws = s.draws ∧ u.draws = s.draws) ∧
    exec (.skp x) s = .next t ∧ t.pc = s.pc + (if pressed then 4 else 2) ∧ FrameExcept [.pc, .draws] s t ∧
    exec (.sknp x) s = .next u ∧ u.pc = s.pc + (if pressed then 2 else 4) ∧ FrameExcept [.pc, .draws] s u

/-- R202: the first issue of LD Vx,K remembers the keypad and holds the pc. -/
def Obligations.KeyWaitBegins : Prop :=
  (∀ (strict : Bool) (x : Nibble), decodeWord strict (wordXKK 0xF x 0x0A) = .ldVxK x) ∧
  ∀ (x : Nibble) (s : State), ∃ t : State, exec (.ldVxK x) s = .next t ∧ t.wait = some ⟨x, s.keys⟩ ∧ t.pc = s.pc ∧
    FrameExcept [.wait] s t

/-- 95_test_vectors.md W8: a wait ends at the step after its awaited key is pressed, with the key in Vx, whatever keys are held. -/
def Obligations.FreshKeyEndsTheWait : Prop :=
  ∀ (s t u : State) (x k : Nibble), s.wait = none → exec (.ldVxK x) s = .next t → s.key k = false →
    setKey t k.toNat true = some u → ∃ v : State, step u = .next v ∧ (v.reg x).toNat = k.toNat ∧ v.wait = none ∧ v.pc = s.pc + 2

/-! ## The timers -/

/-- R210, R211, R212: the timer instructions. -/
def Obligations.TimerInstructions : Prop :=
  (∀ (strict : Bool) (x : Nibble), decodeWord strict (wordXKK 0xF x 0x07) = .ldVxDT x ∧
    decodeWord strict (wordXKK 0xF x 0x15) = .ldDTVx x ∧ decodeWord strict (wordXKK 0xF x 0x18) = .ldSTVx x) ∧
  ∀ (x : Nibble) (s : State),
    (∃ t : State, exec (.ldVxDT x) s = .next t ∧ t.reg x = s.DT ∧ (∀ j, j ≠ x → t.reg j = s.reg j) ∧ t.pc = s.pc + 2 ∧
      FrameExcept [.V, .pc] s t) ∧
    (∃ t : State, exec (.ldDTVx x) s = .next t ∧ t.DT = s.reg x ∧ t.pc = s.pc + 2 ∧ FrameExcept [.DT, .pc] s t) ∧
    (∃ t : State, exec (.ldSTVx x) s = .next t ∧ t.ST = s.reg x ∧ t.pc = s.pc + 2 ∧ FrameExcept [.ST, .pc] s t)

/-- R213: a Tick takes one from each timer that is not zero, waiting or not, and changes nothing else; as often as there are
Ticks. The host's operation Tick is this one, and it never raises. -/
def Obligations.TicksCountDownToZero : Prop :=
  (∀ s : State, FrameExcept [.DT, .ST] s (tick s)) ∧
  (∀ (n : Nat) (s : State), (Nat.iterate tick n s).DT.toNat = s.DT.toNat - n ∧
    (Nat.iterate tick n s).ST.toNat = s.ST.toNat - n) ∧
  (∀ g : Session, ∃ g' : Session, g.apply .tick = .ok (g', .ok) ∧ g'.machine = tick g.machine ∧ g'.faulted = g.faulted)

/-! ## Errors -/

/-- R105: UNKNOWN raises InvalidInstruction with pc and word; so does the Step that fetches one, which changes nothing. -/
def Obligations.UnknownRaisesInvalidInstruction : Prop :=
  (∀ (w : Word) (s : State), exec (.unknown w) s = .fault (.invalidInstruction s.pc w)) ∧
  (∀ (g : Session) (w : Word), g.machine.wait = none → g.machine.fetch16 = .ok w → isUnknownWord w = true →
    ∃ g' : Session, g.apply .step = .ok (g', .err (.invalidInstruction g.machine.pc w)) ∧ g'.machine = g.machine)

/-- 60_exceptions.md sections 1 and 2: an instruction raises an error exactly when the rules say so, the error they say, and otherwise it answers a
next state; it never refuses. This is every instruction's completion, under a condition on the state and operands alone. -/
def Obligations.ExecCompletesOrRaisesItsOwnError : Prop :=
  ∀ (i : Instr) (s : State),
    (∀ f : Fault, ownError s i = some f → exec i s = .fault f) ∧
    (ownError s i = none → ∃ t : State, exec i s = .next t)

/-- R226: a step reports the fetch's error before any other, then InvalidInstruction, then the instruction's own; a waiting step
raises nothing. -/
def Obligations.ErrorPriority : Prop :=
  ∀ s : State,
    (s.wait ≠ none → s.CanStep) ∧
    (s.wait = none → s.pc.toNat > 0xFFE → ∃ a : Nat, step s = .fault (.memoryOutOfBounds s.pc a)) ∧
    (∀ w : Word, s.wait = none → s.fetch16 = .ok w →
      match ownError s (decodeWord s.params.strictDecode w) with
      | some f => step s = .fault f
      | none => s.CanStep)

/-- R228: a Step or Cycle that raises leaves every component of the machine as it was, and reports and records the error. -/
def Obligations.ErrorsCommitNothing : Prop :=
  ∀ (g : Session) (f : Fault), step g.machine = .fault f →
    (∃ g' : Session, g.apply .step = .ok (g', .err f) ∧ g'.machine = g.machine ∧ g'.faulted ≠ none) ∧
    (∀ due : Bool, ∃ g' : Session, g.apply (.cycle due) = .ok (g', .err f) ∧ g'.machine = g.machine ∧
      g'.faulted ≠ none)

/-- 60_exceptions.md section 2: no sequence of host operations clears or replaces the fault record, and a faulted run never ends
successfully. That the record keeps the first error is the model's choice (log entry 11). -/
def Obligations.FaultRecordIsSticky : Prop :=
  ∀ (g g' : Session) (f : Fault) (ops : List HostOp) (haltPc : Addr12), g.faulted = some f → g.run ops = .ok g' →
    g'.faulted = some f ∧ g'.ended haltPc = false

/-! ## Who writes what -/

/-- 10_state.md: every instruction leaves every component alone but those the rules let it write: the timers (R25), the stack
(R28), the keypad (R29), the display (R30), I (R24), memory (R51), and the registers as the `writes` column of R22 says. -/
def Obligations.InstructionsWriteOnlyTheirComponents : Prop :=
  ∀ (i : Instr) (s t : State), exec i s = .next t →
    FrameExcept (mayWrite i) s t ∧ ∀ j : Nibble, writesReg i j = false → t.reg j = s.reg j

/-- 10_state.md R25: no instruction reads ST: with another ST every instruction answers the same state, but for ST itself. -/
def Obligations.NoInstructionReadsTheSoundTimer : Prop :=
  ∀ (i : Instr) (s t : State) (v : Byte), exec i s = .next t →
    ∃ t' : State, exec i { s with ST := v } = .next t' ∧ { t' with ST := t.ST } = t

/-- 44_display.md, R193: no instruction but DRW reads the display: with another display every other instruction answers the same state, but
for the display itself. -/
def Obligations.OnlyDrawReadsTheDisplay : Prop :=
  ∀ (i : Instr) (s t : State) (d : Display), (∀ x y n : Nibble, i ≠ .drw x y n) → exec i s = .next t →
    ∃ t' : State, exec i { s with disp := d } = .next t' ∧ { t' with disp := t.disp } = t

/-! ## Reset and the host's operations -/

/-- R34: what reset leaves in every component, memory with the font at FONT_BASE; `draws` is the model's own and not named here. -/
def Obligations.ResetValues : Prop :=
  ∀ p : Params, ∀ s : State, s = State.resetWith p →
    (∀ j : Nibble, s.reg j = 0) ∧ s.I = 0 ∧ s.pc = 0x200 ∧ s.sp.val = 0 ∧ (∀ (j : Nat) (h : j < 16), s.stack[j] = 0) ∧
    s.DT = 0 ∧ s.ST = 0 ∧ (∀ k : Nibble, s.key k = false) ∧
    (∀ (row : Fin 32) (col : Fin 64), pixel s.disp row col = false) ∧ s.wait = none ∧
    (∀ a : Nat, a < p.fontBase.toNat ∨ p.fontBase.toNat + 80 ≤ a → s.byteAt a = 0) ∧
    (∀ (j : Nat) (h : j < fontBytes.length), s.byteAt (p.fontBase.toNat + j) = fontBytes[j]) ∧ fontBytes.length = 80

/-- R176: the glyph of every digit, row by row, at FONT_BASE + 5 * d after reset. -/
def Obligations.FontIsInMemoryAfterReset : Prop :=
  ∀ (p : Params) (d r : Nat), d < 16 → r < 5 →
    some ((State.resetWith p).byteAt (p.fontBase.toNat + 5 * d + r)) =
      ([[0xF0, 0x90, 0x90, 0x90, 0xF0], [0x20, 0x60, 0x20, 0x20, 0x70], [0xF0, 0x10, 0xF0, 0x80, 0xF0],
        [0xF0, 0x10, 0xF0, 0x10, 0xF0], [0x90, 0x90, 0xF0, 0x10, 0x10], [0xF0, 0x80, 0xF0, 0x10, 0xF0],
        [0xF0, 0x80, 0xF0, 0x90, 0xF0], [0xF0, 0x10, 0x20, 0x40, 0x40], [0xF0, 0x90, 0xF0, 0x90, 0xF0],
        [0xF0, 0x90, 0xF0, 0x10, 0xF0], [0xF0, 0x90, 0xF0, 0x90, 0x90], [0xE0, 0x90, 0xE0, 0x90, 0xE0],
        [0xF0, 0x80, 0x80, 0x80, 0xF0], [0xE0, 0x90, 0x90, 0x90, 0xE0], [0xF0, 0x80, 0xF0, 0x80, 0xF0],
        [0xF0, 0x80, 0xF0, 0x80, 0x80]] : List (List Byte))[d]?.bind (·[r]?)

/-- 70_reset_and_hazards.md section 1: the host's Reset puts every component of the state tuple at its reset value, and LoadImage is
allowed again. That it keeps `params`, which R33 calls no state, and the draw counter, which is set aside here, is the model's choice
(log entry 15). -/
def Obligations.ResetForgetsTheRun : Prop :=
  ∀ (g : Session), ∃ g' : Session, g.apply .reset = .ok (g', .ok) ∧ g'.phase = .fresh ∧
    { g'.machine with draws := 0 } = State.resetWith g.machine.params

/-- 70_reset_and_hazards.md section 2 (R252): LoadImage writes the image and nothing else where it fits, reports LoadOutOfBounds and
writes nothing where it does not, and has no move after the first Step: Reset begins the time in which it is allowed, a Step or Cycle
ends it, and no other operation does either. That a Step which raises ends it too, and that Tick, SetKey and the reads do not, is the
model's choice (log entry 16). -/
def Obligations.LoadImageWritesTheImage : Prop :=
  ∀ (g : Session) (bytes : List Byte) (dest : Nat),
    (g.phase = .running → g.apply (.loadImage bytes dest) = .error .loadAfterFirstStep) ∧
    (g.phase = .fresh → dest + bytes.length > 4096 →
      ∃ g' : Session, g.apply (.loadImage bytes dest) = .ok (g', .err (.loadOutOfBounds dest bytes.length)) ∧
        g'.machine = g.machine) ∧
    (g.phase = .fresh → g.machine.MemOk → dest + bytes.length ≤ 4096 →
      ∃ g' : Session, g.apply (.loadImage bytes dest) = .ok (g', .ok) ∧
        (∀ (j : Nat) (h : j < bytes.length), g'.machine.byteAt (dest + j) = bytes[j]) ∧
        (∀ a : Nat, a < dest ∨ dest + bytes.length ≤ a → g'.machine.byteAt a = g.machine.byteAt a) ∧
        FrameExcept [.mem] g.machine g'.machine ∧ g'.phase = .fresh) ∧
    (∀ (op : HostOp) (g' : Session) (r : Reply), g.apply op = .ok (g', r) →
      g'.phase = match op with
        | .reset => .fresh
        | .step | .cycle _ => .running
        | .loadImage _ _ | .tick | .setKey _ _ | .readDisplay | .readSound => g.phase)

/-- R242: SetKey writes one key; a key outside 0..15 has no move. -/
def Obligations.SetKeyWritesOneKey : Prop :=
  ∀ (g : Session) (k : Nat) (pressed : Bool),
    (k ≥ 16 → g.apply (.setKey k pressed) = .error (.keyOutOfRange k)) ∧
    (k < 16 → ∃ g' : Session, g.apply (.setKey k pressed) = .ok (g', .ok) ∧
      (∀ j : Nibble, g'.machine.key j = if j.toNat = k then pressed else g.machine.key j) ∧
      FrameExcept [.keys] g.machine g'.machine)

/-- R243, R244, R215: the reads answer the display and whether the sound timer runs, and change nothing. -/
def Obligations.ReadsChangeNothing : Prop :=
  ∀ g : Session, g.apply .readDisplay = .ok (g, .display g.machine.disp) ∧
    ∃ active : Bool, g.apply .readSound = .ok (g, .sound active) ∧ (active = true ↔ g.machine.ST.toNat ≠ 0)

/-- R108: Cycle is a Step, then a Tick if one is due; after an error there is no Tick. The host's Step alone leaves the state that
`step` answers. Where the Step succeeds, no error is recorded. -/
def Obligations.CycleIsStepThenTick : Prop :=
  ∀ (g : Session) (due : Bool),
    (∀ t : State, step g.machine = .next t → ∃ g' : Session, g.apply .step = .ok (g', .ok) ∧ g'.machine = t ∧
      g'.faulted = g.faulted) ∧
    (∀ t : State, step g.machine = .next t → ∃ g' : Session, g.apply (.cycle due) = .ok (g', .ok) ∧ g'.faulted = g.faulted ∧
      (due = false → g'.machine = t) ∧
      (due = true → FrameExcept [.DT, .ST] t g'.machine ∧ g'.machine.DT.toNat = t.DT.toNat - 1 ∧
        g'.machine.ST.toNat = t.ST.toNat - 1)) ∧
    (∀ f : Fault, step g.machine = .fault f → ∃ g' : Session, g.apply (.cycle due) = .ok (g', .err f) ∧
      g'.machine = g.machine)

/-- 60_exceptions.md section 6 (R247): a state at the halt loop steps only to itself, whatever the parameters. -/
def Obligations.HaltLoopStepsToItself : Prop :=
  ∀ (s : State) (haltPc : Addr12), s.wait = none → s.pc.toNat = haltPc.toNat → s.pc.toNat ≤ 0xFFE →
    s.byteAt s.pc.toNat ++ s.byteAt (s.pc.toNat + 1) = 0x1000#16 ||| haltPc.setWidth 16 →
    step s = .next s ∧ s.atHalt haltPc = true

/-! ## Invariants -/

/-- 20_memory.md section 4: memory reads as last written: a byte written reads back, every other address as before. -/
def Obligations.MemoryReadsAsLastWritten : Prop :=
  ∀ (s : State) (a b : Nat) (v : Byte), s.MemOk → a < 4096 →
    (s.storeBytes a [v]).MemOk ∧ (s.storeBytes a [v]).byteAt b = if b = a then v else s.byteAt b

/-- 40_fetch_cycle.md sections 1 and 3: the invariant of the machine is kept by every step. -/
def Obligations.StepKeepsTheInvariant : Prop :=
  ∀ s t : State, s.Inv → Sys2Proof.Machine.step s = .next t → t.Inv

/-- The invariant holds at reset. -/
def Obligations.ResetMeetsTheInvariant : Prop :=
  Sys2Proof.Machine.State.reset.Inv ∧ ∀ p : Params, (Session.boot p).Inv

/-- 60_exceptions.md section 6: whatever operations the host performs, in whatever order, the invariant is kept: so in every state
that a run reaches, under any schedule of Steps, Ticks, key presses, loads and resets, the pc is at most 0x10FE, live return
addresses are at most 0x1000, memory is canonical, and a wait stands at its LD Vx,K. The parameters, which 10_state.md section 7 (R33)
calls no state, never change: that they stand in the state at all, and outlive Reset, is the model's choice (log entries 6 and 15). -/
def Obligations.EveryScheduleKeepsTheInvariant : Prop :=
  ∀ (g g' : Session) (ops : List HostOp), g.Inv → g.run ops = .ok g' → g'.Inv ∧ g'.machine.params = g.machine.params

/-- 40_fetch_cycle.md section 1, 90_conflicts.md C8: in a state of the invariant, a waiting step that finds no fresh key is what re-issuing the fetched instruction
gives: there the marker and the re-fetch differ in nothing. With a fresh key they differ, for a re-issue would take a new snapshot. -/
def Obligations.MarkerAgreesWithReissue : Prop :=
  ∀ (s : State) (w : Waiting), s.Inv → s.wait = some w → freshKeys s.keys w.snap = [] →
    step s = step { s with wait := none }
end

