-- ==== Sys2Proof/Laws/Decode.lean ====
section
/-! SUPPORT. The views of a word built from fields: each field comes back from the view that names it (R71). -/

namespace Sys2Proof

theorem append_toNat_eq (a : Nat) {b k : Nat} (h : b < 2 ^ k) : a <<< k ||| b = a * 2 ^ k + b := by
  rw [← Nat.shiftLeft_add_eq_or_of_lt h, Nat.shiftLeft_eq]

/-- A word of four nibbles as a number. -/
theorem toNat_wordXYN (g x y n : Nibble) :
    (wordXYN g x y n).toNat = g.toNat * 4096 + x.toNat * 256 + y.toNat * 16 + n.toNat := by
  change BitVec.toNat (w := 4 + 4 + 4 + 4) (g ++ x ++ y ++ n) = _
  simp only [BitVec.toNat_append]
  rw [append_toNat_eq _ x.isLt, append_toNat_eq _ y.isLt, append_toNat_eq _ n.isLt]
  omega

/-- A word of two nibbles and a byte as a number. -/
theorem toNat_wordXKK (g x : Nibble) (kk : Byte) :
    (wordXKK g x kk).toNat = g.toNat * 4096 + x.toNat * 256 + kk.toNat := by
  change BitVec.toNat (w := 4 + 4 + 8) (g ++ x ++ kk) = _
  simp only [BitVec.toNat_append]
  rw [append_toNat_eq _ x.isLt, append_toNat_eq _ kk.isLt]
  omega

/-- A word of a nibble and twelve bits as a number. -/
theorem toNat_wordNNN (g : Nibble) (nnn : Addr12) : (wordNNN g nnn).toNat = g.toNat * 4096 + nnn.toNat := by
  change BitVec.toNat (w := 4 + 12) (g ++ nnn) = _
  simp only [BitVec.toNat_append]
  rw [append_toNat_eq _ nnn.isLt]
  omega

/-- Any view of a word as a number: shift down, keep the low bits (R9). -/
theorem toNat_view (w : Word) (lo n : Nat) : (w.extractLsb' lo n).toNat = w.toNat / 2 ^ lo % 2 ^ n := by
  rw [BitVec.extractLsb'_toNat, Nat.shiftRight_eq_div_pow]

section views
variable (g x y n : Nibble) (kk : Byte) (nnn : Addr12)

@[simp] theorem group_wordXYN : group (wordXYN g x y n) = g := by
  apply BitVec.eq_of_toNat_eq; rw [group, toNat_view, toNat_wordXYN]; omega
@[simp] theorem regX_wordXYN : regX (wordXYN g x y n) = x := by
  apply BitVec.eq_of_toNat_eq; rw [regX, toNat_view, toNat_wordXYN]; omega
@[simp] theorem regY_wordXYN : regY (wordXYN g x y n) = y := by
  apply BitVec.eq_of_toNat_eq; rw [regY, toNat_view, toNat_wordXYN]; omega
@[simp] theorem nibble4_wordXYN : nibble4 (wordXYN g x y n) = n := by
  apply BitVec.eq_of_toNat_eq; rw [nibble4, toNat_view, toNat_wordXYN]; omega
@[simp] theorem group_wordXKK : group (wordXKK g x kk) = g := by
  apply BitVec.eq_of_toNat_eq; rw [group, toNat_view, toNat_wordXKK]; omega
@[simp] theorem regX_wordXKK : regX (wordXKK g x kk) = x := by
  apply BitVec.eq_of_toNat_eq; rw [regX, toNat_view, toNat_wordXKK]; omega
@[simp] theorem imm8_wordXKK : imm8 (wordXKK g x kk) = kk := by
  apply BitVec.eq_of_toNat_eq; rw [imm8, toNat_view, toNat_wordXKK]; omega
@[simp] theorem group_wordNNN : group (wordNNN g nnn) = g := by
  apply BitVec.eq_of_toNat_eq; rw [group, toNat_view, toNat_wordNNN]; omega
@[simp] theorem addr12_wordNNN : addr12 (wordNNN g nnn) = nnn := by
  apply BitVec.eq_of_toNat_eq; rw [addr12, toNat_view, toNat_wordNNN]; omega

end views

/-- Two words with the same four nibbles are the same. -/
theorem word_ext {v w : Word} (h3 : group v = group w) (h2 : regX v = regX w) (h1 : regY v = regY w)
    (h0 : nibble4 v = nibble4 w) : v = w := by
  apply BitVec.eq_of_toNat_eq
  have h3 := congrArg BitVec.toNat h3
  have h2 := congrArg BitVec.toNat h2
  have h1 := congrArg BitVec.toNat h1
  have h0 := congrArg BitVec.toNat h0
  simp only [group, regX, regY, nibble4, toNat_view] at h3 h2 h1 h0
  have hv := v.isLt
  have hw := w.isLt
  omega

/-- Every word is the word of its four nibbles. -/
theorem wordXYN_views (w : Word) : wordXYN (group w) (regX w) (regY w) (nibble4 w) = w :=
  word_ext (by simp) (by simp) (by simp) (by simp)

/-- A word of a group, x and kk as four nibbles. -/
theorem wordXKK_eq (g x y n : Nibble) : wordXKK g x (y ++ n) = wordXYN g x y n := by
  apply BitVec.eq_of_toNat_eq
  rw [toNat_wordXKK, toNat_wordXYN, BitVec.toNat_append, append_toNat_eq _ n.isLt]
  omega

/-- The low byte of a word of four nibbles. -/
theorem imm8_wordXYN (g x y n : Nibble) : imm8 (wordXYN g x y n) = y ++ n := by
  rw [← wordXKK_eq, imm8_wordXKK]

/-- Every word is the word of its group, x and kk. -/
theorem wordXKK_views (w : Word) : wordXKK (group w) (regX w) (imm8 w) = w := by
  have h : imm8 w = regY w ++ nibble4 w := by
    conv_lhs => rw [← wordXYN_views w, imm8_wordXYN]
  rw [h, wordXKK_eq, wordXYN_views]

/-- Every word is the word of its group and nnn. -/
theorem wordNNN_views (w : Word) : wordNNN (group w) (addr12 w) = w := by
  apply BitVec.eq_of_toNat_eq
  rw [toNat_wordNNN, group, addr12, toNat_view, toNat_view]
  have := w.isLt
  omega

/-- The UNKNOWN space of R78 in terms of the views. -/
theorem isUnknownWord_views (w : Word) : isUnknownWord w =
    ((group w == 0x0#4 && !([0xE0#8, 0xEE#8].contains (imm8 w)))
    || (group w == 0x8#4 && [0x8#4, 0x9#4, 0xA#4, 0xB#4, 0xC#4, 0xD#4, 0xF#4].contains (nibble4 w))
    || (group w == 0xE#4 && !([0x9E#8, 0xA1#8].contains (imm8 w)))
    || (group w == 0xF#4 &&
        !([0x07#8, 0x0A#8, 0x15#8, 0x18#8, 0x1E#8, 0x29#8, 0x33#8, 0x55#8, 0x65#8].contains (imm8 w)))) := rfl

/-- The don't-care bits in terms of the views. -/
theorem hasDontCareBit_views (w : Word) : hasDontCareBit w =
    ((group w == 0x0#4 && [0xE0#8, 0xEE#8].contains (imm8 w) && regX w != 0#4)
    || ((group w == 0x5#4 || group w == 0x9#4) && nibble4 w != 0#4)
    || (group w == 0x8#4 && (nibble4 w == 0x6#4 || nibble4 w == 0xE#4) && regY w != 0#4)) := rfl

/-- A word of the UNKNOWN space classifies as UNKNOWN. -/
theorem classify_of_isUnknownWord {w : Word} (h : isUnknownWord w = true) : classify w = .unknown w := by
  rw [isUnknownWord_views] at h
  simp only [Bool.or_eq_true, Bool.and_eq_true, beq_iff_eq, Bool.not_eq_true'] at h
  rcases h with ((⟨h, h'⟩ | ⟨h, h'⟩) | ⟨h, h'⟩) | ⟨h, h'⟩ <;> simp at h' <;>
    simp [classify, h, classifyGroup0, classifyGroup8, classifyGroupE, classifyGroupF, h']
  rcases h' with h' | h' | h' | h' | h' | h' | h' <;> simp [h']

/-- Everything classification can do: each kind with the words that select it (R76, R81). -/
inductive Decodes : Word → Instr → Prop where
  | cls (x : Nibble) : Decodes (wordXKK 0x0#4 x 0xE0#8) .cls
  | ret (x : Nibble) : Decodes (wordXKK 0x0#4 x 0xEE#8) .ret
  | jp (nnn : Addr12) : Decodes (wordNNN 0x1#4 nnn) (.jp nnn)
  | call (nnn : Addr12) : Decodes (wordNNN 0x2#4 nnn) (.call nnn)
  | seImm (x : Nibble) (kk : Byte) : Decodes (wordXKK 0x3#4 x kk) (.seImm x kk)
  | sneImm (x : Nibble) (kk : Byte) : Decodes (wordXKK 0x4#4 x kk) (.sneImm x kk)
  | seReg (x y n : Nibble) : Decodes (wordXYN 0x5#4 x y n) (.seReg x y)
  | ldImm (x : Nibble) (kk : Byte) : Decodes (wordXKK 0x6#4 x kk) (.ldImm x kk)
  | addImm (x : Nibble) (kk : Byte) : Decodes (wordXKK 0x7#4 x kk) (.addImm x kk)
  | ldReg (x y : Nibble) : Decodes (wordXYN 0x8#4 x y 0x0#4) (.ldReg x y)
  | orReg (x y : Nibble) : Decodes (wordXYN 0x8#4 x y 0x1#4) (.orReg x y)
  | andReg (x y : Nibble) : Decodes (wordXYN 0x8#4 x y 0x2#4) (.andReg x y)
  | xorReg (x y : Nibble) : Decodes (wordXYN 0x8#4 x y 0x3#4) (.xorReg x y)
  | addReg (x y : Nibble) : Decodes (wordXYN 0x8#4 x y 0x4#4) (.addReg x y)
  | subReg (x y : Nibble) : Decodes (wordXYN 0x8#4 x y 0x5#4) (.subReg x y)
  | shr (x y : Nibble) : Decodes (wordXYN 0x8#4 x y 0x6#4) (.shr x y)
  | subnReg (x y : Nibble) : Decodes (wordXYN 0x8#4 x y 0x7#4) (.subnReg x y)
  | shl (x y : Nibble) : Decodes (wordXYN 0x8#4 x y 0xE#4) (.shl x y)
  | sneReg (x y n : Nibble) : Decodes (wordXYN 0x9#4 x y n) (.sneReg x y)
  | ldI (nnn : Addr12) : Decodes (wordNNN 0xA#4 nnn) (.ldI nnn)
  | jpV0 (nnn : Addr12) : Decodes (wordNNN 0xB#4 nnn) (.jpV0 nnn)
  | rnd (x : Nibble) (kk : Byte) : Decodes (wordXKK 0xC#4 x kk) (.rnd x kk)
  | drw (x y n : Nibble) : Decodes (wordXYN 0xD#4 x y n) (.drw x y n)
  | skp (x : Nibble) : Decodes (wordXKK 0xE#4 x 0x9E#8) (.skp x)
  | sknp (x : Nibble) : Decodes (wordXKK 0xE#4 x 0xA1#8) (.sknp x)
  | ldVxDT (x : Nibble) : Decodes (wordXKK 0xF#4 x 0x07#8) (.ldVxDT x)
  | ldVxK (x : Nibble) : Decodes (wordXKK 0xF#4 x 0x0A#8) (.ldVxK x)
  | ldDTVx (x : Nibble) : Decodes (wordXKK 0xF#4 x 0x15#8) (.ldDTVx x)
  | ldSTVx (x : Nibble) : Decodes (wordXKK 0xF#4 x 0x18#8) (.ldSTVx x)
  | addI (x : Nibble) : Decodes (wordXKK 0xF#4 x 0x1E#8) (.addI x)
  | ldF (x : Nibble) : Decodes (wordXKK 0xF#4 x 0x29#8) (.ldF x)
  | ldB (x : Nibble) : Decodes (wordXKK 0xF#4 x 0x33#8) (.ldB x)
  | stm (x : Nibble) : Decodes (wordXKK 0xF#4 x 0x55#8) (.stm x)
  | ldm (x : Nibble) : Decodes (wordXKK 0xF#4 x 0x65#8) (.ldm x)
  | unknown (w : Word) (h : isUnknownWord w = true) : Decodes w (.unknown w)

theorem Nibble_cases (g : Nibble) :
    g = 0#4 ∨ g = 1#4 ∨ g = 2#4 ∨ g = 3#4 ∨ g = 4#4 ∨ g = 5#4 ∨ g = 6#4 ∨ g = 7#4 ∨ g = 8#4 ∨ g = 9#4 ∨ g = 10#4 ∨
      g = 11#4 ∨ g = 12#4 ∨ g = 13#4 ∨ g = 14#4 ∨ g = 15#4 := by
  revert g; decide

/-- A group-8 word outside the UNKNOWN space has one of the nine selectors. -/
theorem decodes_group8 (x y n : Nibble) (hu : isUnknownWord (wordXYN 0x8#4 x y n) = false) :
    Decodes (wordXYN 0x8#4 x y n) (classify (wordXYN 0x8#4 x y n)) := by
  simp only [isUnknownWord_views, group_wordXYN, nibble4_wordXYN] at hu
  simp only [classify, classifyGroup8, group_wordXYN, regX_wordXYN, regY_wordXYN, nibble4_wordXYN]
  have hn : n = 0x0#4 ∨ n = 0x1#4 ∨ n = 0x2#4 ∨ n = 0x3#4 ∨ n = 0x4#4 ∨ n = 0x5#4 ∨ n = 0x6#4 ∨ n = 0x7#4 ∨
      n = 0xE#4 := by
    have hc : [0x8#4, 0x9#4, 0xA#4, 0xB#4, 0xC#4, 0xD#4, 0xF#4].contains n = false := by
      cases h : [0x8#4, 0x9#4, 0xA#4, 0xB#4, 0xC#4, 0xD#4, 0xF#4].contains n
      · rfl
      · rw [h] at hu; simp at hu
    clear hu
    revert n; decide
  rcases hn with rfl | rfl | rfl | rfl | rfl | rfl | rfl | rfl | rfl
  · exact .ldReg x y
  · exact .orReg x y
  · exact .andReg x y
  · exact .xorReg x y
  · exact .addReg x y
  · exact .subReg x y
  · exact .shr x y
  · exact .subnReg x y
  · exact .shl x y

/-- A group-0 word outside the UNKNOWN space has one of the two selectors. -/
theorem decodes_group0 (x : Nibble) (kk : Byte) (hu : isUnknownWord (wordXKK 0x0#4 x kk) = false) :
    Decodes (wordXKK 0x0#4 x kk) (classify (wordXKK 0x0#4 x kk)) := by
  simp only [isUnknownWord_views, group_wordXKK, imm8_wordXKK] at hu
  have hk : kk = 0xE0#8 ∨ kk = 0xEE#8 := by simp at hu; tauto
  rcases hk with rfl | rfl <;> simp [classify, classifyGroup0]
  · exact .cls x
  · exact .ret x

/-- A group-E word outside the UNKNOWN space has one of the two selectors. -/
theorem decodes_groupE (x : Nibble) (kk : Byte) (hu : isUnknownWord (wordXKK 0xE#4 x kk) = false) :
    Decodes (wordXKK 0xE#4 x kk) (classify (wordXKK 0xE#4 x kk)) := by
  simp only [isUnknownWord_views, group_wordXKK, imm8_wordXKK] at hu
  have hk : kk = 0x9E#8 ∨ kk = 0xA1#8 := by simp at hu; tauto
  rcases hk with rfl | rfl <;> simp [classify, classifyGroupE]
  · exact .skp x
  · exact .sknp x

/-- A group-F word outside the UNKNOWN space has one of the nine selectors. -/
theorem decodes_groupF (x : Nibble) (kk : Byte) (hu : isUnknownWord (wordXKK 0xF#4 x kk) = false) :
    Decodes (wordXKK 0xF#4 x kk) (classify (wordXKK 0xF#4 x kk)) := by
  simp only [isUnknownWord_views, group_wordXKK, imm8_wordXKK] at hu
  have hk : kk = 0x07#8 ∨ kk = 0x0A#8 ∨ kk = 0x15#8 ∨ kk = 0x18#8 ∨ kk = 0x1E#8 ∨ kk = 0x29#8 ∨ kk = 0x33#8 ∨
      kk = 0x55#8 ∨ kk = 0x65#8 := by simp at hu; tauto
  rcases hk with rfl | rfl | rfl | rfl | rfl | rfl | rfl | rfl | rfl <;> simp [classify, classifyGroupF]
  · exact .ldVxDT x
  · exact .ldVxK x
  · exact .ldDTVx x
  · exact .ldSTVx x
  · exact .addI x
  · exact .ldF x
  · exact .ldB x
  · exact .stm x
  · exact .ldm x

/-- Classification does one of the things `Decodes` lists, for every word. -/
theorem classify_decodes (w : Word) : Decodes w (classify w) := by
  by_cases hu : isUnknownWord w = true
  · rw [classify_of_isUnknownWord hu]; exact .unknown w hu
  · simp only [Bool.not_eq_true] at hu
    rcases Nibble_cases (group w) with h | h | h | h | h | h | h | h | h | h | h | h | h | h | h | h
    · have e := wordXKK_views w; rw [h] at e; rw [← e] at hu ⊢; exact decodes_group0 _ _ hu
    · have e := wordNNN_views w; rw [h] at e; rw [← e]; simp [classify]; exact .jp _
    · have e := wordNNN_views w; rw [h] at e; rw [← e]; simp [classify]; exact .call _
    · have e := wordXKK_views w; rw [h] at e; rw [← e]; simp [classify]; exact .seImm _ _
    · have e := wordXKK_views w; rw [h] at e; rw [← e]; simp [classify]; exact .sneImm _ _
    · have e := wordXYN_views w; rw [h] at e; rw [← e]; simp [classify]; exact .seReg _ _ _
    · have e := wordXKK_views w; rw [h] at e; rw [← e]; simp [classify]; exact .ldImm _ _
    · have e := wordXKK_views w; rw [h] at e; rw [← e]; simp [classify]; exact .addImm _ _
    · have e := wordXYN_views w; rw [h] at e; rw [← e] at hu ⊢; exact decodes_group8 _ _ _ hu
    · have e := wordXYN_views w; rw [h] at e; rw [← e]; simp [classify]; exact .sneReg _ _ _
    · have e := wordNNN_views w; rw [h] at e; rw [← e]; simp [classify]; exact .ldI _
    · have e := wordNNN_views w; rw [h] at e; rw [← e]; simp [classify]; exact .jpV0 _
    · have e := wordXKK_views w; rw [h] at e; rw [← e]; simp [classify]; exact .rnd _ _
    · have e := wordXYN_views w; rw [h] at e; rw [← e]; simp [classify]; exact .drw _ _ _
    · have e := wordXKK_views w; rw [h] at e; rw [← e] at hu ⊢; exact decodes_groupE _ _ hu
    · have e := wordXKK_views w; rw [h] at e; rw [← e] at hu ⊢; exact decodes_groupF _ _ hu

/-! ## Masks: the three of R81, in terms of the views -/

/-- A mask of four nibbles acts nibble by nibble. -/
theorem wordXYN_and (g x y n g' x' y' n' : Nibble) :
    wordXYN g x y n &&& wordXYN g' x' y' n' = wordXYN (g &&& g') (x &&& x') (y &&& y') (n &&& n') := by
  change (HAnd.hAnd (α := BitVec (4 + 4 + 4 + 4)) (g ++ x ++ y ++ n) (g' ++ x' ++ y' ++ n')) =
    ((g &&& g') ++ (x &&& x') ++ (y &&& y') ++ (n &&& n') : BitVec (4 + 4 + 4 + 4))
  rw [BitVec.and_append, BitVec.and_append, BitVec.and_append]

theorem and_wordXYN (w : Word) (g x y n : Nibble) :
    w &&& wordXYN g x y n = wordXYN (group w &&& g) (regX w &&& x) (regY w &&& y) (nibble4 w &&& n) := by
  rw [← wordXYN_and, wordXYN_views]

theorem nibble_and_ones (v : Nibble) : v &&& 0xF#4 = v := BitVec.and_allOnes

/-- The mask 0xF000 keeps the group. -/
theorem and_groupMask (w : Word) : w &&& 0xF000#16 = wordXYN (group w) 0#4 0#4 0#4 := by
  rw [show (0xF000#16 : Word) = wordXYN 0xF#4 0#4 0#4 0#4 from rfl, and_wordXYN, nibble_and_ones]
  simp

/-- The mask 0xF00F keeps the group and the low nibble. -/
theorem and_groupNibbleMask (w : Word) : w &&& 0xF00F#16 = wordXYN (group w) 0#4 0#4 (nibble4 w) := by
  rw [show (0xF00F#16 : Word) = wordXYN 0xF#4 0#4 0#4 0xF#4 from rfl, and_wordXYN, nibble_and_ones, nibble_and_ones]
  simp

/-- The mask 0xF0FF keeps the group and the low byte. -/
theorem and_groupByteMask (w : Word) : w &&& 0xF0FF#16 = wordXKK (group w) 0#4 (imm8 w) := by
  rw [show (0xF0FF#16 : Word) = wordXYN 0xF#4 0#4 0xF#4 0xF#4 from rfl, and_wordXYN, nibble_and_ones, nibble_and_ones,
    nibble_and_ones]
  apply BitVec.eq_of_toNat_eq
  rw [toNat_wordXYN, toNat_wordXKK, regY, nibble4, imm8, toNat_view, toNat_view, toNat_view]
  simp
  omega

/-- Without STRICT_DECODE, decoding is classification. -/
@[simp] theorem decodeWord_false (w : Word) : decodeWord false w = classify w := by
  simp [decodeWord]

end Sys2Proof
end

