-- ==== Sys2Proof/Laws/Display.lean ====
section
/-! SUPPORT. What a drawing does to each pixel: the loops of R191 as a closed form. -/

namespace Sys2Proof.Machine

@[simp] theorem pixel_blankDisplay (row : Fin 32) (col : Fin 64) : pixel blankDisplay row col = false := by
  simp [pixel, blankDisplay]

/-- A toggle inverts its pixel and no other. -/
@[simp] theorem pixel_togglePixel (d : Display) (row row' : Fin 32) (col col' : Fin 64) :
    pixel (togglePixel d row col) row' col' =
      if row' = row ∧ col' = col then !pixel d row col else pixel d row' col' := by
  by_cases hr : row' = row
  · subst hr
    by_cases hc : col' = col
    · subst hc; simp [pixel, togglePixel]
    · have hn : ¬ col.val = col'.val := fun e => hc (Fin.ext e.symm)
      simp [pixel, togglePixel, hc, hn]
  · have hn : ¬ row.val = row'.val := fun e => hr (Fin.ext e.symm)
    simp [pixel, togglePixel, hr, hn]

/-- Two displays with the same pixels are the same. -/
theorem display_ext {d e : Display} (h : ∀ row col, pixel d row col = pixel e row col) : d = e := by
  refine Vector.ext fun r hr => Vector.ext fun c hc => ?_
  exact h ⟨r, hr⟩ ⟨c, hc⟩

/-- Whether columns 0..m-1 of one sprite row `b`, drawn at row `r`, have a 1 bit on pixel (row, col). -/
def rowBit (b x0 y0 : Byte) (r m : Nat) (row : Fin 32) (col : Fin 64) : Bool :=
  (List.range m).any fun c =>
    decide (row = wrapRow (y0.toNat + r)) && decide (col = wrapCol (x0.toNat + c)) && b.getLsbD (7 - c)

/-- Whether the first `n` rows of a sprite have a 1 bit on pixel (row, col). -/
def spriteBit (sprite : Nat → Byte) (x0 y0 : Byte) (n : Nat) (row : Fin 32) (col : Fin 64) : Bool :=
  (List.range n).any fun r => rowBit (sprite r) x0 y0 r 8 row col

theorem rowBit_succ (b x0 y0 : Byte) (r m : Nat) (row : Fin 32) (col : Fin 64) :
    rowBit b x0 y0 r (m + 1) row col =
      (rowBit b x0 y0 r m row col ||
        (decide (row = wrapRow (y0.toNat + r)) && decide (col = wrapCol (x0.toNat + m)) &&
          b.getLsbD (7 - m))) := by
  simp [rowBit, List.range_succ]

theorem spriteBit_succ (sprite : Nat → Byte) (x0 y0 : Byte) (n : Nat) (row : Fin 32) (col : Fin 64) :
    spriteBit sprite x0 y0 (n + 1) row col =
      (spriteBit sprite x0 y0 n row col || rowBit (sprite n) x0 y0 n 8 row col) := by
  simp [spriteBit, List.range_succ]

/-- Eight columns do not meet on the 64: column `m` is none of the columns before it. -/
theorem rowBit_next_column (b x0 y0 : Byte) (r : Nat) {m : Nat} (hm : m < 8) (row : Fin 32) :
    rowBit b x0 y0 r m row (wrapCol (x0.toNat + m)) = false := by
  simp only [rowBit, List.any_eq_false, List.mem_range]
  intro c hc
  have : wrapCol (x0.toNat + m) ≠ wrapCol (x0.toNat + c) := by
    intro e
    have := congrArg Fin.val e
    simp only [wrapCol] at this
    omega
  simp [this]

/-- At most 32 rows do not meet on the 32: row `n` is none of the rows before it. -/
theorem spriteBit_next_row (sprite : Nat → Byte) (x0 y0 : Byte) {n : Nat} (hn : n < 32) (col : Fin 64) :
    spriteBit sprite x0 y0 n (wrapRow (y0.toNat + n)) col = false := by
  simp only [spriteBit, List.any_eq_false, List.mem_range]
  intro r hr
  have : wrapRow (y0.toNat + n) ≠ wrapRow (y0.toNat + r) := by
    intro e
    have := congrArg Fin.val e
    simp only [wrapRow] at this
    omega
  simp [rowBit, this]

/-- Drawing the first `m` columns of a row XORs its bits onto the display. -/
theorem pixel_drawColumns (b x0 y0 : Byte) (r : Nat) (dr : Drawing) {m : Nat} (hm : m ≤ 8) (row : Fin 32) (col : Fin 64) :
    pixel ((List.range m).foldl (drawBit b x0 y0 r) dr).disp row col =
      (pixel dr.disp row col ^^ rowBit b x0 y0 r m row col) := by
  induction m with
  | zero => simp [rowBit]
  | succ m ih =>
    rw [List.range_succ, List.foldl_append, rowBit_succ]
    have ih := ih (by omega)
    generalize (List.range m).foldl (drawBit b x0 y0 r) dr = acc at ih ⊢
    simp only [List.foldl_cons, List.foldl_nil, drawBit]
    by_cases hb : b.getLsbD (7 - m) = true
    · by_cases hp : row = wrapRow (y0.toNat + r) ∧ col = wrapCol (x0.toNat + m)
      · obtain ⟨hr, hc⟩ := hp
        have hnew := rowBit_next_column b x0 y0 r (show m < 8 by omega) row
        rw [← hc] at hnew
        rw [if_pos hb, pixel_togglePixel, if_pos ⟨hr, hc⟩, ← hr, ← hc, ih, hnew]
        simp [hb]
      · rw [if_pos hb, pixel_togglePixel, if_neg hp, ih]
        have : (decide (row = wrapRow (y0.toNat + r)) && decide (col = wrapCol (x0.toNat + m))) = false := by
          simpa using hp
        rw [this]; simp
    · rw [if_neg hb, ih]; simp [hb]

/-- Drawing the first `m` columns of a row collides where a 1 bit meets a pixel that was on. -/
theorem collide_drawColumns (b x0 y0 : Byte) (r : Nat) (dr : Drawing) {m : Nat} (hm : m ≤ 8) :
    ((List.range m).foldl (drawBit b x0 y0 r) dr).collide =
      (dr.collide || (List.range m).any fun c => b.getLsbD (7 - c) &&
        pixel dr.disp (wrapRow (y0.toNat + r)) (wrapCol (x0.toNat + c))) := by
  induction m with
  | zero => simp
  | succ m ih =>
    have hpix := pixel_drawColumns b x0 y0 r dr (show m ≤ 8 by omega) (wrapRow (y0.toNat + r))
      (wrapCol (x0.toNat + m))
    rw [rowBit_next_column b x0 y0 r (show m < 8 by omega), Bool.xor_false] at hpix
    rw [List.range_succ, List.foldl_append, List.any_append]
    have ih := ih (by omega)
    generalize (List.range m).foldl (drawBit b x0 y0 r) dr = acc at ih hpix ⊢
    simp only [List.foldl_cons, List.foldl_nil, drawBit, List.any_cons, List.any_nil, Bool.or_false]
    by_cases hb : b.getLsbD (7 - m) = true
    · rw [if_pos hb]; simp only [ih, hpix, hb, Bool.true_and, Bool.or_assoc]
    · rw [if_neg hb]; simp [ih, hb]

/-- Drawing a sprite XORs its bits onto the display (R191). -/
theorem pixel_drawSprite (sprite : Nat → Byte) (x0 y0 : Byte) {n : Nat} (hn : n ≤ 32) (d : Display) (row : Fin 32)
    (col : Fin 64) :
    pixel (drawSprite sprite x0 y0 n d).disp row col = (pixel d row col ^^ spriteBit sprite x0 y0 n row col) := by
  induction n with
  | zero => simp [drawSprite, spriteBit]
  | succ n ih =>
    have ih := ih (by omega)
    rw [drawSprite] at ih
    rw [drawSprite, List.range_succ, List.foldl_append, spriteBit_succ]
    simp only [List.foldl_cons, List.foldl_nil, drawRow]
    rw [pixel_drawColumns (sprite n) x0 y0 n _ (le_refl 8)]
    change (pixel ((List.range n).foldl (drawRow sprite x0 y0) ⟨d, false⟩).disp row col ^^ _) = _
    rw [ih, Bool.xor_assoc]
    congr 1
    by_cases hr : row = wrapRow (y0.toNat + n)
    · rw [hr, spriteBit_next_row sprite x0 y0 (by omega)]; simp
    · have : rowBit (sprite n) x0 y0 n 8 row col = false := by simp [rowBit, hr]
      rw [this]; simp

/-- Drawing a sprite collides where one of its 1 bits meets a pixel that was on (R191). -/
theorem collide_drawSprite (sprite : Nat → Byte) (x0 y0 : Byte) {n : Nat} (hn : n ≤ 32) (d : Display) :
    (drawSprite sprite x0 y0 n d).collide =
      (List.range n).any fun r => (List.range 8).any fun c => (sprite r).getLsbD (7 - c) &&
        pixel d (wrapRow (y0.toNat + r)) (wrapCol (x0.toNat + c)) := by
  induction n with
  | zero => rfl
  | succ n ih =>
    have hpix := fun col => pixel_drawSprite sprite x0 y0 (show n ≤ 32 by omega) d (wrapRow (y0.toNat + n)) col
    simp only [spriteBit_next_row sprite x0 y0 (show n < 32 by omega), Bool.xor_false] at hpix
    have ih := ih (by omega)
    rw [drawSprite] at ih
    simp only [drawSprite] at hpix
    rw [drawSprite, List.range_succ, List.foldl_append, List.any_append]
    simp only [List.foldl_cons, List.foldl_nil, drawRow, List.any_cons, List.any_nil, Bool.or_false]
    rw [collide_drawColumns (sprite n) x0 y0 n _ (le_refl 8)]
    change (((List.range n).foldl (drawRow sprite x0 y0) ⟨d, false⟩).collide || _) = _
    rw [ih]
    congr 2
    funext c
    congr 1
    exact hpix _

end Sys2Proof.Machine
end

