-- ==== Sys2Proof/Laws/Memory.lean ====
section
/-! SUPPORT. Memory: a read after a write, and every operation keeps the canonical form. -/

namespace Sys2Proof.Machine

/-- Below the first listed address nothing is listed. -/
theorem Memory.byteAt_of_lt {d : Nat → Byte} {lo : Nat} {m : Memory} (h : Memory.wfFrom d lo m = true) {a : Nat}
    (ha : a < lo) : Memory.byteAt d m a = d a := by
  induction m generalizing lo with
  | nil => rfl
  | cons c m ih =>
    obtain ⟨b, w⟩ := c
    simp only [Memory.wfFrom, Bool.and_eq_true, decide_eq_true_eq] at h
    have hne : a ≠ b := by omega
    simp only [Memory.byteAt, if_neg hne]
    exact ih h.2 (by omega)

/-- A canonical memory is canonical from any lower address on. -/
theorem Memory.wfFrom_mono {d : Nat → Byte} {lo lo' : Nat} {m : Memory} (h : Memory.wfFrom d lo m = true)
    (hl : lo' ≤ lo) : Memory.wfFrom d lo' m = true := by
  cases m with
  | nil => rfl
  | cons c m =>
    obtain ⟨b, w⟩ := c
    simp only [Memory.wfFrom, Bool.and_eq_true, decide_eq_true_eq] at h ⊢
    exact ⟨⟨⟨by omega, h.1.1.2⟩, h.1.2⟩, h.2⟩

/-- A byte reads as last written, and a write leaves every other address alone: in a canonical memory. -/
theorem Memory.byteAt_store {d : Nat → Byte} {lo : Nat} {m : Memory} (h : Memory.wfFrom d lo m = true) (a : Nat)
    (v : Byte) (b : Nat) : Memory.byteAt d (Memory.store d m a v) b = if b = a then v else Memory.byteAt d m b := by
  induction m generalizing lo with
  | nil =>
    by_cases hv : v = d a <;> by_cases hb : b = a <;> simp [Memory.store, Memory.byteAt, hv, hb]
  | cons c m ih =>
    obtain ⟨k, w⟩ := c
    simp only [Memory.wfFrom, Bool.and_eq_true, decide_eq_true_eq] at h
    simp only [Memory.store]
    split
    · split
      · rename_i hlt hv
        by_cases hb : b = a
        · subst hb
          have : b ≠ k := by omega
          simp [Memory.byteAt, this, hv, Memory.byteAt_of_lt h.2 (show b < k + 1 by omega)]
        · simp [hb]
      · simp [Memory.byteAt]
    · split
      · rename_i hak
        subst hak
        split
        · rename_i hv
          by_cases hb : b = a
          · subst hb; simp [Memory.byteAt_of_lt h.2 (show b < b + 1 by omega), hv]
          · simp [Memory.byteAt, hb]
        · by_cases hb : b = a <;> simp [Memory.byteAt, hb]
      · by_cases hk : b = k
        · subst hk
          have : b ≠ a := fun e => by omega
          simp [Memory.byteAt, this]
        · simp [Memory.byteAt, hk, ih h.2]

/-- A store keeps the canonical form, at an address that exists. -/
theorem Memory.wfFrom_store {d : Nat → Byte} {lo : Nat} {m : Memory} (h : Memory.wfFrom d lo m = true) {a : Nat}
    (v : Byte) (hlo : lo ≤ a) (ha : a < Config.memSize) : Memory.wfFrom d lo (Memory.store d m a v) = true := by
  induction m generalizing lo with
  | nil =>
    by_cases hv : v = d a <;> simp [Memory.store, Memory.wfFrom, hv, hlo, ha]
  | cons c m ih =>
    obtain ⟨k, w⟩ := c
    simp only [Memory.wfFrom, Bool.and_eq_true, decide_eq_true_eq, bne_iff_ne, ne_eq] at h
    simp only [Memory.store]
    split
    · rename_i hlt
      split
      · simp [Memory.wfFrom, h]
      · rename_i hv
        simp [Memory.wfFrom, h, hlo, ha, hv, Nat.succ_le_of_lt hlt]
    · split
      · rename_i hak
        subst hak
        split
        · exact Memory.wfFrom_mono h.2 (by omega)
        · rename_i hv
          simp [Memory.wfFrom, h, hv]
      · simp only [Memory.wfFrom, Bool.and_eq_true, decide_eq_true_eq, bne_iff_ne, ne_eq]
        exact ⟨h.1, ih h.2 (by omega)⟩

/-- A store of consecutive bytes keeps the canonical form, where all the addresses exist. -/
theorem Memory.wfFrom_storeBytes {d : Nat → Byte} {m : Memory} (h : Memory.wfFrom d 0 m = true) {a : Nat}
    (vs : List Byte) (ha : a + vs.length ≤ Config.memSize) : Memory.wfFrom d 0 (Memory.storeBytes d m a vs) = true := by
  induction vs generalizing m a with
  | nil => exact h
  | cons v vs ih =>
    simp only [List.length_cons] at ha
    exact ih (Memory.wfFrom_store h v (Nat.zero_le a) (by omega)) (by omega)

/-- What each address reads as after a store of consecutive bytes, in a canonical memory. -/
theorem Memory.byteAt_storeBytes {d : Nat → Byte} {m : Memory} (h : Memory.wfFrom d 0 m = true) {a : Nat}
    (vs : List Byte) (ha : a + vs.length ≤ Config.memSize) (b : Nat) :
    Memory.byteAt d (Memory.storeBytes d m a vs) b =
      if h : a ≤ b ∧ b < a + vs.length then vs[b - a]'(by omega) else Memory.byteAt d m b := by
  induction vs generalizing m a with
  | nil =>
    have : ¬ (a ≤ b ∧ b < a + ([] : List Byte).length) := by simp only [List.length_nil]; omega
    rw [dif_neg this, Memory.storeBytes]
  | cons v vs ih =>
    simp only [List.length_cons] at ha
    rw [Memory.storeBytes, ih (Memory.wfFrom_store h v (Nat.zero_le a) (by omega)) (by omega),
      Memory.byteAt_store h]
    by_cases hb : b = a
    · subst hb
      simp
    · by_cases hin : a + 1 ≤ b ∧ b < a + 1 + vs.length
      · have h2 : a ≤ b ∧ b < a + (v :: vs).length := by simp only [List.length_cons]; omega
        rw [dif_pos hin, dif_pos h2]
        have e : b - a = (b - (a + 1)) + 1 := by omega
        simp [e]
      · have h2 : ¬ (a ≤ b ∧ b < a + (v :: vs).length) := by simp only [List.length_cons]; omega
        rw [dif_neg hin, dif_neg h2, if_neg hb]

/-- What each address of a state reads as after a store, where memory is canonical and the addresses exist. -/
theorem storeBytes_byteAt {s : State} (h : Memory.wf (resetByte s.params.fontBase) s.mem = true) {a : Nat}
    (vs : List Byte) (ha : a + vs.length ≤ Config.memSize) (b : Nat) :
    (s.storeBytes a vs).byteAt b = if h : a ≤ b ∧ b < a + vs.length then vs[b - a]'(by omega) else s.byteAt b :=
  Memory.byteAt_storeBytes h vs ha b

/-- A store keeps a state's memory canonical, where the addresses exist. -/
theorem storeBytes_wf {s : State} (h : Memory.wf (resetByte s.params.fontBase) s.mem = true) {a : Nat}
    (vs : List Byte) (ha : a + vs.length ≤ Config.memSize) :
    Memory.wf (resetByte (s.storeBytes a vs).params.fontBase) (s.storeBytes a vs).mem = true :=
  Memory.wfFrom_storeBytes h vs ha

/-- The memory of reset is canonical. -/
theorem resetWith_mem_wf (p : Params) : Memory.wf (resetByte p.fontBase) (State.resetWith p).mem = true := rfl

end Sys2Proof.Machine
end

