-- ==== Sys2Proof/Laws/State.lean ====
section
/-! SUPPORT. One lemma per field per update of State, each true by rfl, so that no proof unfolds a record update. -/

namespace Sys2Proof.Machine

section setReg
variable (s : State) (x : Nibble) (v : Byte)

@[simp] theorem setReg_I : (s.setReg x v).I = s.I := rfl
@[simp] theorem setReg_pc : (s.setReg x v).pc = s.pc := rfl
@[simp] theorem setReg_sp : (s.setReg x v).sp = s.sp := rfl
@[simp] theorem setReg_stack : (s.setReg x v).stack = s.stack := rfl
@[simp] theorem setReg_DT : (s.setReg x v).DT = s.DT := rfl
@[simp] theorem setReg_ST : (s.setReg x v).ST = s.ST := rfl
@[simp] theorem setReg_mem : (s.setReg x v).mem = s.mem := rfl
@[simp] theorem setReg_keys : (s.setReg x v).keys = s.keys := rfl
@[simp] theorem setReg_disp : (s.setReg x v).disp = s.disp := rfl
@[simp] theorem setReg_wait : (s.setReg x v).wait = s.wait := rfl
@[simp] theorem setReg_draws : (s.setReg x v).draws = s.draws := rfl
@[simp] theorem setReg_params : (s.setReg x v).params = s.params := rfl
@[simp] theorem setReg_byteAt : (s.setReg x v).byteAt = s.byteAt := rfl

/-- A register reads as last written, and a write to one register leaves the others alone. -/
@[simp] theorem setReg_reg (y : Nibble) : (s.setReg x v).reg y = if y = x then v else s.reg y := by
  by_cases h : y = x
  · subst h; simp [State.reg, State.setReg]
  · have hn : ¬ x.toNat = y.toNat := fun e => h (BitVec.eq_of_toNat_eq e.symm)
    simp [State.reg, State.setReg, h, hn]

end setReg

/-- The pc is no register of V and no byte of memory. -/
@[simp] theorem withPc_reg (s : State) (p : Word) : State.reg { s with pc := p } = s.reg := rfl
@[simp] theorem withPc_byteAt (s : State) (p : Word) : State.byteAt { s with pc := p } = s.byteAt := rfl
@[simp] theorem withPc_key (s : State) (p : Word) : State.key { s with pc := p } = s.key := rfl

section drawn
variable (s : State)

@[simp] theorem drawn_V : s.drawn.V = s.V := rfl
@[simp] theorem drawn_I : s.drawn.I = s.I := rfl
@[simp] theorem drawn_pc : s.drawn.pc = s.pc := rfl
@[simp] theorem drawn_sp : s.drawn.sp = s.sp := rfl
@[simp] theorem drawn_stack : s.drawn.stack = s.stack := rfl
@[simp] theorem drawn_DT : s.drawn.DT = s.DT := rfl
@[simp] theorem drawn_ST : s.drawn.ST = s.ST := rfl
@[simp] theorem drawn_mem : s.drawn.mem = s.mem := rfl
@[simp] theorem drawn_keys : s.drawn.keys = s.keys := rfl
@[simp] theorem drawn_disp : s.drawn.disp = s.disp := rfl
@[simp] theorem drawn_wait : s.drawn.wait = s.wait := rfl
@[simp] theorem drawn_draws : s.drawn.draws = s.draws + 1 := rfl
@[simp] theorem drawn_params : s.drawn.params = s.params := rfl
@[simp] theorem drawn_reg : s.drawn.reg = s.reg := rfl
@[simp] theorem drawn_byteAt : s.drawn.byteAt = s.byteAt := rfl

end drawn

section storeBytes
variable (s : State) (a : Nat) (vs : List Byte)

@[simp] theorem storeBytes_V : (s.storeBytes a vs).V = s.V := rfl
@[simp] theorem storeBytes_I : (s.storeBytes a vs).I = s.I := rfl
@[simp] theorem storeBytes_pc : (s.storeBytes a vs).pc = s.pc := rfl
@[simp] theorem storeBytes_sp : (s.storeBytes a vs).sp = s.sp := rfl
@[simp] theorem storeBytes_stack : (s.storeBytes a vs).stack = s.stack := rfl
@[simp] theorem storeBytes_DT : (s.storeBytes a vs).DT = s.DT := rfl
@[simp] theorem storeBytes_ST : (s.storeBytes a vs).ST = s.ST := rfl
@[simp] theorem storeBytes_keys : (s.storeBytes a vs).keys = s.keys := rfl
@[simp] theorem storeBytes_disp : (s.storeBytes a vs).disp = s.disp := rfl
@[simp] theorem storeBytes_wait : (s.storeBytes a vs).wait = s.wait := rfl
@[simp] theorem storeBytes_draws : (s.storeBytes a vs).draws = s.draws := rfl
@[simp] theorem storeBytes_params : (s.storeBytes a vs).params = s.params := rfl
@[simp] theorem storeBytes_reg : (s.storeBytes a vs).reg = s.reg := rfl

end storeBytes

section writeFlagged
variable (s : State) (x : Nibble) (r : Flagged)

@[simp] theorem writeFlagged_I : (s.writeFlagged x r).I = s.I := by unfold State.writeFlagged; split <;> rfl
@[simp] theorem writeFlagged_pc : (s.writeFlagged x r).pc = s.pc := by unfold State.writeFlagged; split <;> rfl
@[simp] theorem writeFlagged_sp : (s.writeFlagged x r).sp = s.sp := by unfold State.writeFlagged; split <;> rfl
@[simp] theorem writeFlagged_stack : (s.writeFlagged x r).stack = s.stack := by unfold State.writeFlagged; split <;> rfl
@[simp] theorem writeFlagged_DT : (s.writeFlagged x r).DT = s.DT := by unfold State.writeFlagged; split <;> rfl
@[simp] theorem writeFlagged_ST : (s.writeFlagged x r).ST = s.ST := by unfold State.writeFlagged; split <;> rfl
@[simp] theorem writeFlagged_mem : (s.writeFlagged x r).mem = s.mem := by unfold State.writeFlagged; split <;> rfl
@[simp] theorem writeFlagged_keys : (s.writeFlagged x r).keys = s.keys := by unfold State.writeFlagged; split <;> rfl
@[simp] theorem writeFlagged_disp : (s.writeFlagged x r).disp = s.disp := by unfold State.writeFlagged; split <;> rfl
@[simp] theorem writeFlagged_wait : (s.writeFlagged x r).wait = s.wait := by unfold State.writeFlagged; split <;> rfl
@[simp] theorem writeFlagged_draws : (s.writeFlagged x r).draws = s.draws := by unfold State.writeFlagged; split <;> rfl
@[simp] theorem writeFlagged_params : (s.writeFlagged x r).params = s.params := by unfold State.writeFlagged; split <;> rfl
@[simp] theorem writeFlagged_byteAt : (s.writeFlagged x r).byteAt = s.byteAt := by unfold State.writeFlagged; split <;> rfl

/-- R147, whole: away from VF both writes stand; with VF the destination, VF_ORDER says which one does. -/
theorem writeFlagged_reg (j : Nibble) :
    (s.writeFlagged x r).reg j =
      if j = x ∧ (x ≠ 15#4 ∨ s.params.vfOrder = .resultLast) then r.res
      else if j = 15#4 then flagByte r.flag else s.reg j := by
  unfold State.writeFlagged
  cases h : s.params.vfOrder <;> simp only [setReg_reg]
  · by_cases hj : j = x <;> by_cases h15 : j = 15#4 <;> simp_all
  · by_cases hj : j = x <;> by_cases h15 : j = 15#4 <;> simp_all

end writeFlagged

end Sys2Proof.Machine
end

