-- ==== Sys2Proof/Laws/Operands.lean ====
section
/-! SUPPORT. What each operand form gives, said once. -/

namespace Sys2Proof.Machine

/-- An absolute address is the number `nnn`. -/
theorem toNat_absolute (nnn : Addr12) : (absolute nnn).toNat = nnn.toNat := by
  simp only [absolute, BitVec.toNat_setWidth]; omega

/-- The target of JP V0,nnn is the sum, not reduced (R128). -/
theorem toNat_indexedTarget (s : State) (nnn : Addr12) :
    (indexedTarget s nnn).toNat = (s.reg 0#4).toNat + nnn.toNat := by
  simp only [indexedTarget, BitVec.toNat_add, toNat_absolute, BitVec.toNat_setWidth]; omega

/-- The low nibble of a byte as a number. -/
theorem toNat_lowNibble (v : Byte) : (v.setWidth 4).toNat = v.toNat % 16 := by
  simp only [BitVec.toNat_setWidth]

/-- A digit has its glyph, and nothing is drawn (R172). -/
theorem glyphAddress_digit {s : State} {d : Byte} (h : d.toNat ≤ 0xF) :
    glyphAddress s d = (s.params.fontBase + BitVec.ofNat 16 (5 * d.toNat), s) := by
  have e : d.toNat % 16 = d.toNat := by omega
  simp only [glyphAddress, if_pos h, glyphOf, glyphBytes, toNat_lowNibble, e]

/-- Under the policy `draw` a byte that is no digit gives a free value (R172). -/
theorem glyphAddress_draw {s : State} {d : Byte} (h : ¬ d.toNat ≤ 0xF) (hp : s.params.fontDigitPolicy = .draw) :
    glyphAddress s d = (Config.glyphAddress s.draws, s.drawn) := by
  simp only [glyphAddress, if_neg h, hp]

/-- Under the policy `mask` a byte that is no digit gives the glyph of its low nibble (R172). -/
theorem glyphAddress_mask {s : State} {d : Byte} (h : ¬ d.toNat ≤ 0xF) (hp : s.params.fontDigitPolicy = .mask) :
    glyphAddress s d = (s.params.fontBase + BitVec.ofNat 16 (5 * (d.toNat % 16)), s) := by
  simp only [glyphAddress, if_neg h, hp, glyphOf, glyphBytes, toNat_lowNibble]

/-- A key index up to 15, or any index under the policy `mask`, reads a key, and nothing is drawn (R204). -/
theorem keyAt_key {s : State} {k : Byte} (h : k.toNat ≤ 0xF ∨ s.params.keyIndexPolicy = .mask) :
    keyAt s k = (s.key (k.setWidth 4), s) := by
  by_cases hk : k.toNat ≤ 0xF
  · simp only [keyAt, if_pos hk]
  · simp only [keyAt, if_neg hk, h.resolve_left hk]

/-- Under the policy `draw` an index that names no key gives a free Boolean (R204). -/
theorem keyAt_draw {s : State} {k : Byte} (h : ¬ k.toNat ≤ 0xF) (hp : s.params.keyIndexPolicy = .draw) :
    keyAt s k = (Config.keyBeyond s.draws, s.drawn) := by
  simp only [keyAt, if_neg h, hp]

/-- Reading a key changes nothing but, where it draws, `draws`. -/
theorem keyAt_snd (s : State) (k : Byte) : (keyAt s k).2 = s ∨ (keyAt s k).2 = s.drawn := by
  unfold keyAt
  split
  · exact Or.inl rfl
  · split
    · exact Or.inr rfl
    · exact Or.inl rfl

/-- A glyph address changes nothing but, where it draws, `draws`. -/
theorem glyphAddress_snd (s : State) (d : Byte) : (glyphAddress s d).2 = s ∨ (glyphAddress s d).2 = s.drawn := by
  unfold glyphAddress
  split
  · exact Or.inl rfl
  · split
    · exact Or.inr rfl
    · exact Or.inl rfl

/-- V0..Vx are x + 1 bytes. -/
@[simp] theorem length_registersUpTo (s : State) (x : Nibble) : (registersUpTo s x).length = x.toNat + 1 := by
  have := x.isLt
  simp only [registersUpTo, List.length_take, Vector.length_toList]
  omega

/-- The `j`-th of V0..Vx is V[j]. -/
theorem getElem_registersUpTo (s : State) (x : Nibble) (j : Nat) (h : j < (registersUpTo s x).length) :
    (registersUpTo s x)[j] = s.V[j]'(by rw [length_registersUpTo] at h; have := x.isLt; omega) := by
  simp only [registersUpTo, List.getElem_take, Vector.getElem_toList]

/-- V0..Vx are loaded from I..I+x, and the other registers kept (R175). -/
theorem loadRegisters_reg (s : State) (x j : Nibble) :
    (s.loadRegisters x).reg j = if j.toNat ≤ x.toNat then s.byteAt (s.I.toNat + j.toNat) else s.reg j := by
  simp only [State.loadRegisters, State.reg, Vector.getElem_ofFn]

section loadRegisters
variable (s : State) (x : Nibble)

@[simp] theorem loadRegisters_I : (s.loadRegisters x).I = s.I := by rw [State.loadRegisters]
@[simp] theorem loadRegisters_pc : (s.loadRegisters x).pc = s.pc := by rw [State.loadRegisters]
@[simp] theorem loadRegisters_sp : (s.loadRegisters x).sp = s.sp := by rw [State.loadRegisters]
@[simp] theorem loadRegisters_stack : (s.loadRegisters x).stack = s.stack := by rw [State.loadRegisters]
@[simp] theorem loadRegisters_DT : (s.loadRegisters x).DT = s.DT := by rw [State.loadRegisters]
@[simp] theorem loadRegisters_ST : (s.loadRegisters x).ST = s.ST := by rw [State.loadRegisters]
@[simp] theorem loadRegisters_mem : (s.loadRegisters x).mem = s.mem := by rw [State.loadRegisters]
@[simp] theorem loadRegisters_keys : (s.loadRegisters x).keys = s.keys := by rw [State.loadRegisters]
@[simp] theorem loadRegisters_disp : (s.loadRegisters x).disp = s.disp := by rw [State.loadRegisters]
@[simp] theorem loadRegisters_wait : (s.loadRegisters x).wait = s.wait := by rw [State.loadRegisters]
@[simp] theorem loadRegisters_draws : (s.loadRegisters x).draws = s.draws := by rw [State.loadRegisters]
@[simp] theorem loadRegisters_params : (s.loadRegisters x).params = s.params := by rw [State.loadRegisters]
@[simp] theorem loadRegisters_byteAt : (s.loadRegisters x).byteAt = s.byteAt := by rw [State.loadRegisters]; rfl

end loadRegisters

/-- The fresh keys are those pressed now and not in the snapshot (R203). -/
theorem mem_freshKeys {keys snap : Keypad} {k : Fin 16} :
    k ∈ freshKeys keys snap ↔ keys[k.val] = true ∧ snap[k.val] = false := by
  simp [freshKeys]

/-- The first fresh key is the lowest. -/
theorem freshKeys_head_le {keys snap : Keypad} {k : Fin 16} {ks : List (Fin 16)} (h : freshKeys keys snap = k :: ks)
    {j : Fin 16} (hj : j ∈ freshKeys keys snap) : k ≤ j := by
  have hs : (freshKeys keys snap).Pairwise (· < ·) := (List.pairwise_lt_finRange 16).filter _
  rw [h] at hs hj
  rcases List.mem_cons.mp hj with rfl | hj
  · exact le_refl _
  · exact le_of_lt (List.rel_of_pairwise_cons hs hj)

/-- KEY_SELECT gives one of the fresh keys, and changes nothing but `draws`, and that only under `draw` (R203). -/
theorem selectKey_spec (s : State) (k : Fin 16) (ks : List (Fin 16)) :
    (selectKey s k ks).1 ∈ k :: ks ∧
      ((selectKey s k ks).2 = s ∧ (selectKey s k ks).1 = k ∧ s.params.keySelect = .lowest ∨
        (selectKey s k ks).2 = s.drawn ∧ s.params.keySelect = .draw) := by
  unfold selectKey
  cases hs : s.params.keySelect
  · exact ⟨List.mem_cons_self, Or.inl ⟨rfl, rfl, rfl⟩⟩
  · refine ⟨?_, Or.inr ⟨rfl, rfl⟩⟩
    have hlt : Config.keyChoice s.draws % (ks.length + 1) < (k :: ks).length := by
      rw [List.length_cons]; exact Nat.mod_lt _ (Nat.succ_pos _)
    rw [List.getD_eq_getElem _ _ hlt]
    exact List.getElem_mem hlt

/-- A waiting step without a fresh key only takes a new snapshot (R203). -/
theorem waitStep_idle {s : State} {w : Waiting} (h : freshKeys s.keys w.snap = []) :
    waitStep w s = { s with wait := some { w with snap := s.keys } } := by
  simp only [waitStep, h]

/-- A waiting step with fresh keys writes one of them into Vx, ends the wait and moves on (R203). -/
theorem waitStep_done {s : State} {w : Waiting} {k : Fin 16} {ks : List (Fin 16)}
    (h : freshKeys s.keys w.snap = k :: ks) :
    waitStep w s = { (selectKey s k ks).2.setReg w.x (BitVec.ofNat 8 (selectKey s k ks).1.val) with
      wait := none, pc := s.pc + 2 } := by
  simp only [waitStep, h]

end Sys2Proof.Machine
end

