-- ==== Sys2Proof/Laws/Ops.lean ====
section
/-! SUPPORT. What each shared operation can do, said once: the bounds check, the fetch, the stack, the pc. -/

namespace Sys2Proof.Machine

/-- The bounds check as a comparison: it passes exactly when the last address exists, and reports the lowest that does not. -/
theorem firstOutOfBounds_eq (base n : Nat) :
    firstOutOfBounds base n = if n = 0 ∨ base + n ≤ 4096 then none else some (max base 4096) := by
  unfold firstOutOfBounds
  induction n with
  | zero => simp
  | succ n ih =>
    rw [List.range_succ, List.map_append, List.find?_append, ih]
    by_cases h : n = 0 ∨ base + n ≤ 4096
    · rw [if_pos h]
      by_cases h2 : base + (n + 1) ≤ 4096
      · have : ¬ base + n > 0xFFF := by omega
        simp [h2, this]
      · have hgt : base + n > 0xFFF := by omega
        have hmax : base + n = max base 4096 := by omega
        have h3 : ¬ (n + 1 = 0 ∨ base + (n + 1) ≤ 4096) := by omega
        rw [if_neg h3]
        simp [hgt, ← hmax]
    · have h2 : ¬ (n + 1 = 0 ∨ base + (n + 1) ≤ 4096) := by omega
      rw [if_neg h, if_neg h2]
      rfl

/-- A checked access that passes is its body. -/
theorem checkIndex_pass {s : State} {n : Nat} (h : n = 0 ∨ s.I.toNat + n ≤ 4096) (body : Result) :
    s.checkIndex n body = body := by
  simp only [State.checkIndex, firstOutOfBounds_eq, if_pos h]

/-- A checked access that does not pass raises MemoryOutOfBounds at the lowest failing address. -/
theorem checkIndex_fail {s : State} {n : Nat} (h : ¬ (n = 0 ∨ s.I.toNat + n ≤ 4096)) (body : Result) :
    s.checkIndex n body = .fault (.memoryOutOfBounds s.pc (max s.I.toNat 4096)) := by
  simp only [State.checkIndex, firstOutOfBounds_eq, if_neg h, raise]

/-- If a checked access answers a next state, all its addresses exist and its body answered that state. -/
theorem checkIndex_next {s t : State} {n : Nat} {body : Result} (h : s.checkIndex n body = .next t) :
    (n = 0 ∨ s.I.toNat + n ≤ 4096) ∧ body = .next t := by
  by_cases hn : n = 0 ∨ s.I.toNat + n ≤ 4096
  · exact ⟨hn, by rw [← checkIndex_pass hn body]; exact h⟩
  · rw [checkIndex_fail hn] at h; cases h

/-- Every request ends in a next state, with only the pc changed. -/
@[simp] theorem finish_eq_next {s t : State} {r : NextPc} :
    s.finish r = .next t ↔ t = { s with pc := advance s.pc r } := by
  simp only [State.finish, Host.Outcome.next.injEq]
  exact eq_comm

/-- A fetch succeeds exactly up to pc = 0xFFE, and joins the two bytes there, the high byte first (R55). -/
theorem fetch16_ok {s : State} (h : s.pc.toNat ≤ 0xFFE) :
    s.fetch16 = .ok (s.byteAt s.pc.toNat ++ s.byteAt (s.pc.toNat + 1)) := by
  have h1 : ¬ s.pc.toNat > 0xFFF := by omega
  have h2 : ¬ s.pc.toNat + 1 > 0xFFF := by omega
  simp only [State.fetch16, State.memRead, if_neg h1, if_neg h2]

/-- Above 0xFFE a fetch fails at the first address out of bounds (R55). -/
theorem fetch16_error {s : State} (h : s.pc.toNat > 0xFFE) : s.fetch16 = .error (max s.pc.toNat 4096) := by
  by_cases h1 : s.pc.toNat > 0xFFF
  · simp only [State.fetch16, State.memRead, if_pos h1]
    congr 1; omega
  · have h2 : s.pc.toNat + 1 > 0xFFF := by omega
    simp only [State.fetch16, State.memRead, if_neg h1, if_pos h2]
    congr 1; omega

/-- A push below depth 16 writes the free slot and moves `sp` up (R123). -/
theorem push_some {s : State} (h : s.sp.val < 16) (v : Word) :
    s.push v = some { s with stack := s.stack.set s.sp.val v h, sp := ⟨s.sp.val + 1, by omega⟩ } := by
  simp only [State.push, dif_pos h]

/-- A push at depth 16 fails (R123). -/
theorem push_none {s : State} (h : ¬ s.sp.val < 16) (v : Word) : s.push v = none := by
  simp only [State.push, dif_neg h]

/-- A pop above depth 0 reads the last live slot and moves `sp` down; the slot is kept (R121). -/
theorem pop_some {s : State} (h : s.sp.val ≠ 0) :
    s.pop = some (s.stack[s.sp.val - 1]'(by omega), { s with sp := ⟨s.sp.val - 1, by omega⟩ }) := by
  simp only [State.pop, dif_neg h]

/-- A pop at depth 0 fails (R121). -/
theorem pop_none {s : State} (h : s.sp.val = 0) : s.pop = none := by
  simp only [State.pop, dif_pos h]

end Sys2Proof.Machine
end

