-- ==== Sys2Proof/Laws/PerInstr.lean ====
section
/-! SUPPORT. The per-instruction family EncodeMatch: the encoder writes the fixed bits that R81 gives the instruction's row. -/

namespace Sys2Proof.Laws.EncodeMatch

/-- The word of an instruction matches its row of R81; an UNKNOWN has no row there, and its word is the one it carries. -/
def Statement : Instr → Prop
  | .unknown w => encode (.unknown w) = w ∧ ∀ row ∈ opcodeTable, row.1 ≠ mnemonic (.unknown w)
  | i => ∀ row ∈ opcodeTable, row.1 = mnemonic i → rowMatches (encode i) row = true

/-- A word of a nibble and twelve bits, its group kept. -/
theorem keep_nnn (g : Nibble) (nnn : Addr12) : wordNNN g nnn &&& 0xF000#16 = wordXYN g 0#4 0#4 0#4 := by
  rw [and_groupMask, group_wordNNN]

/-- A word of two nibbles and a byte, its group kept. -/
theorem keep_xkk (g x : Nibble) (kk : Byte) : wordXKK g x kk &&& 0xF000#16 = wordXYN g 0#4 0#4 0#4 := by
  rw [and_groupMask, group_wordXKK]

/-- A word of four nibbles, its group kept. -/
theorem keep_xyn (g x y n : Nibble) : wordXYN g x y n &&& 0xF000#16 = wordXYN g 0#4 0#4 0#4 := by
  rw [and_groupMask, group_wordXYN]

/-- A word of four nibbles, its group and low nibble kept. -/
theorem keep_xyn_low (g x y n : Nibble) : wordXYN g x y n &&& 0xF00F#16 = wordXYN g 0#4 0#4 n := by
  rw [and_groupNibbleMask, group_wordXYN, nibble4_wordXYN]

/-- A word of two nibbles and a byte, its group and byte kept. -/
theorem keep_byte (g x : Nibble) (kk : Byte) : wordXKK g x kk &&& 0xF0FF#16 = wordXKK g 0#4 kk := by
  rw [and_groupByteMask, group_wordXKK, imm8_wordXKK]

theorem cls : Statement (.cls) := by
  simp [Statement, opcodeTable, mnemonic, rowMatches, encode]
theorem ret : Statement (.ret) := by
  simp [Statement, opcodeTable, mnemonic, rowMatches, encode]
theorem jp (nnn : Addr12) : Statement (.jp nnn) := by
  simp [Statement, opcodeTable, mnemonic, rowMatches, encode, keep_nnn]; rfl
theorem call (nnn : Addr12) : Statement (.call nnn) := by
  simp [Statement, opcodeTable, mnemonic, rowMatches, encode, keep_nnn]; rfl
theorem seImm (x : Nibble) (kk : Byte) : Statement (.seImm x kk) := by
  simp [Statement, opcodeTable, mnemonic, rowMatches, encode, keep_xkk]; rfl
theorem sneImm (x : Nibble) (kk : Byte) : Statement (.sneImm x kk) := by
  simp [Statement, opcodeTable, mnemonic, rowMatches, encode, keep_xkk]; rfl
theorem seReg (x y : Nibble) : Statement (.seReg x y) := by
  simp [Statement, opcodeTable, mnemonic, rowMatches, encode, keep_xyn]; rfl
theorem ldImm (x : Nibble) (kk : Byte) : Statement (.ldImm x kk) := by
  simp [Statement, opcodeTable, mnemonic, rowMatches, encode, keep_xkk]; rfl
theorem addImm (x : Nibble) (kk : Byte) : Statement (.addImm x kk) := by
  simp [Statement, opcodeTable, mnemonic, rowMatches, encode, keep_xkk]; rfl
theorem ldReg (x y : Nibble) : Statement (.ldReg x y) := by
  simp [Statement, opcodeTable, mnemonic, rowMatches, encode, keep_xyn_low]; rfl
theorem orReg (x y : Nibble) : Statement (.orReg x y) := by
  simp [Statement, opcodeTable, mnemonic, rowMatches, encode, keep_xyn_low]; rfl
theorem andReg (x y : Nibble) : Statement (.andReg x y) := by
  simp [Statement, opcodeTable, mnemonic, rowMatches, encode, keep_xyn_low]; rfl
theorem xorReg (x y : Nibble) : Statement (.xorReg x y) := by
  simp [Statement, opcodeTable, mnemonic, rowMatches, encode, keep_xyn_low]; rfl
theorem addReg (x y : Nibble) : Statement (.addReg x y) := by
  simp [Statement, opcodeTable, mnemonic, rowMatches, encode, keep_xyn_low]; rfl
theorem subReg (x y : Nibble) : Statement (.subReg x y) := by
  simp [Statement, opcodeTable, mnemonic, rowMatches, encode, keep_xyn_low]; rfl
theorem shr (x y : Nibble) : Statement (.shr x y) := by
  simp [Statement, opcodeTable, mnemonic, rowMatches, encode, keep_xyn_low]; rfl
theorem subnReg (x y : Nibble) : Statement (.subnReg x y) := by
  simp [Statement, opcodeTable, mnemonic, rowMatches, encode, keep_xyn_low]; rfl
theorem shl (x y : Nibble) : Statement (.shl x y) := by
  simp [Statement, opcodeTable, mnemonic, rowMatches, encode, keep_xyn_low]; rfl
theorem sneReg (x y : Nibble) : Statement (.sneReg x y) := by
  simp [Statement, opcodeTable, mnemonic, rowMatches, encode, keep_xyn]; rfl
theorem ldI (nnn : Addr12) : Statement (.ldI nnn) := by
  simp [Statement, opcodeTable, mnemonic, rowMatches, encode, keep_nnn]; rfl
theorem jpV0 (nnn : Addr12) : Statement (.jpV0 nnn) := by
  simp [Statement, opcodeTable, mnemonic, rowMatches, encode, keep_nnn]; rfl
theorem rnd (x : Nibble) (kk : Byte) : Statement (.rnd x kk) := by
  simp [Statement, opcodeTable, mnemonic, rowMatches, encode, keep_xkk]; rfl
theorem drw (x y n : Nibble) : Statement (.drw x y n) := by
  simp [Statement, opcodeTable, mnemonic, rowMatches, encode, keep_xyn]; rfl
theorem skp (x : Nibble) : Statement (.skp x) := by
  simp [Statement, opcodeTable, mnemonic, rowMatches, encode, keep_byte]; rfl
theorem sknp (x : Nibble) : Statement (.sknp x) := by
  simp [Statement, opcodeTable, mnemonic, rowMatches, encode, keep_byte]; rfl
theorem ldVxDT (x : Nibble) : Statement (.ldVxDT x) := by
  simp [Statement, opcodeTable, mnemonic, rowMatches, encode, keep_byte]; rfl
theorem ldVxK (x : Nibble) : Statement (.ldVxK x) := by
  simp [Statement, opcodeTable, mnemonic, rowMatches, encode, keep_byte]; rfl
theorem ldDTVx (x : Nibble) : Statement (.ldDTVx x) := by
  simp [Statement, opcodeTable, mnemonic, rowMatches, encode, keep_byte]; rfl
theorem ldSTVx (x : Nibble) : Statement (.ldSTVx x) := by
  simp [Statement, opcodeTable, mnemonic, rowMatches, encode, keep_byte]; rfl
theorem addI (x : Nibble) : Statement (.addI x) := by
  simp [Statement, opcodeTable, mnemonic, rowMatches, encode, keep_byte]; rfl
theorem ldF (x : Nibble) : Statement (.ldF x) := by
  simp [Statement, opcodeTable, mnemonic, rowMatches, encode, keep_byte]; rfl
theorem ldB (x : Nibble) : Statement (.ldB x) := by
  simp [Statement, opcodeTable, mnemonic, rowMatches, encode, keep_byte]; rfl
theorem stm (x : Nibble) : Statement (.stm x) := by
  simp [Statement, opcodeTable, mnemonic, rowMatches, encode, keep_byte]; rfl
theorem ldm (x : Nibble) : Statement (.ldm x) := by
  simp [Statement, opcodeTable, mnemonic, rowMatches, encode, keep_byte]; rfl
theorem unknown (w : Word) : Statement (.unknown w) := by
  simp [Statement, opcodeTable, mnemonic, encode]

end Sys2Proof.Laws.EncodeMatch
end

