-- ==== Sys2Proof/Laws/Step.lean ====
section
/-! SUPPORT. What a step can do, said once; and the one-timer decrement of a Tick. -/

namespace Sys2Proof.Machine

/-- A step that answers a next state was a wait step, or ran the instruction it fetched and decoded. -/
theorem step_next {s t : State} (h : step s = .next t) :
    (∃ w : Waiting, s.wait = some w ∧ t = waitStep w s) ∨
      (s.wait = none ∧ s.pc.toNat ≤ 0xFFE ∧ ∃ w : Word, s.fetch16 = .ok w ∧
        exec (decodeWord s.params.strictDecode w) s = .next t) := by
  unfold step at h
  split at h
  · rename_i w hw
    cases h
    exact Or.inl ⟨w, hw, rfl⟩
  · rename_i hw
    split at h
    · cases h
    · rename_i w hf
      refine Or.inr ⟨hw, ?_, w, hf, h⟩
      by_contra hpc
      rw [fetch16_error (by omega)] at hf
      cases hf

/-- A step that faults was no wait step: its fetch failed, or the instruction it ran raised the error. -/
theorem step_fault {s : State} {f : Fault} (h : step s = .fault f) :
    s.wait = none ∧ ((s.pc.toNat > 0xFFE ∧ f = .memoryOutOfBounds s.pc (max s.pc.toNat 4096)) ∨
      ∃ w : Word, s.fetch16 = .ok w ∧ exec (decodeWord s.params.strictDecode w) s = .fault f) := by
  unfold step at h
  split at h
  · cases h
  · rename_i hw
    refine ⟨hw, ?_⟩
    split at h
    · rename_i a hf
      by_cases hpc : s.pc.toNat ≤ 0xFFE
      · rw [fetch16_ok hpc] at hf; cases hf
      · rw [fetch16_error (by omega)] at hf
        cases hf; cases h
        exact Or.inl ⟨by omega, rfl⟩
    · rename_i w hf
      exact Or.inr ⟨w, hf, h⟩

/-- A timer's decrement stops at zero (R213). -/
theorem toNat_countDown (t : Byte) : (countDown t).toNat = t.toNat - 1 := by
  unfold countDown
  split
  · subst_vars; rfl
  · rename_i h
    have : t.toNat ≠ 0 := fun e => h (BitVec.eq_of_toNat_eq e)
    rw [BitVec.toNat_sub_of_le (by simp [BitVec.le_def]; omega)]
    rfl

/-- What a session can become after a Step or Cycle: running, with the next state, or with the error recorded and the machine kept. -/
theorem afterStep_ok {g g' : Session} {res : Result} {r : Reply} (h : g.afterStep res = .ok (g', r)) :
    g'.phase = .running ∧
      ((∃ t : State, res = .next t ∧ g'.machine = t ∧ g'.faulted = g.faulted ∧ r = .ok) ∨
        ∃ f : Fault, res = .fault f ∧ g'.machine = g.machine ∧ g'.faulted = g.faulted.or (some f) ∧ r = .err f) := by
  cases res <;> simp only [Session.afterStep] at h <;> cases h
  · exact ⟨rfl, Or.inl ⟨_, rfl, rfl, rfl, rfl⟩⟩
  · exact ⟨rfl, Or.inr ⟨_, rfl, rfl, rfl, rfl⟩⟩

/-- A list of host operations is a first one and the rest. -/
theorem run_cons {g g' : Session} {op : HostOp} {ops : List HostOp} (h : g.run (op :: ops) = .ok g') :
    ∃ (g₁ : Session) (r : Reply), g.apply op = .ok (g₁, r) ∧ g₁.run ops = .ok g' := by
  simp only [Session.run] at h
  split at h
  · rename_i g₁ r ha
    exact ⟨g₁, r, ha, h⟩
  · cases h

end Sys2Proof.Machine
end

