-- ==== Sys2Proof/Tests/Slice0.lean ====
section
/-! SUPPORT. Tests: expected values are those of spec/95_test_vectors.md (its vector named beside each) or are computed by hand
from the rule named; and one witness for the hypotheses of each obligation, clause by clause. -/

namespace Sys2Proof.Tests

open Sys2Proof Sys2Proof.Machine

/-! ## Well-formedness: an ill-formed term for each check is refused -/

/-- UNKNOWN with a word of an executable kind (CLS). -/
theorem test_wf_unknown_executable : Instr.wf false (.unknown 0x00E0) = false ∧ Instr.wf true (.unknown 0x00E0) = false := by decide

/-- UNKNOWN with a don't-care word is well formed only under STRICT_DECODE (U15). -/
theorem test_wf_unknown_dontCare : Instr.wf false (.unknown 0x01E0) = false ∧ Instr.wf true (.unknown 0x01E0) = true := by decide

/-- SHR and SHL with a y field that is not 0 are refused under STRICT_DECODE (U15). -/
theorem test_wf_shift_y : Instr.wf true (.shr 1 0xF) = false ∧ Instr.wf true (.shl 1 0xF) = false ∧
    Instr.wf false (.shr 1 0xF) = true ∧ Instr.wf false (.shl 1 0xF) = true := by decide

/-! ## Decoding: one word per constructor, written from R81's patterns and the vectors -/

/-- F4, F3, F1, F17, M1 and G10: the words without a register. -/
theorem test_decode_nnn : decodeWord false 0x00E0 = .cls ∧ decodeWord false 0x00EE = .ret ∧ decodeWord false 0x1234 = .jp 0x234 ∧
    decodeWord false 0x2210 = .call 0x210 ∧ decodeWord false 0xB300 = .jpV0 0x300 ∧ decodeWord false 0xA300 = .ldI 0x300 := by decide

/-- F8, F10, A1, A2 and A22: the words of an x and a kk. -/
theorem test_decode_xkk : decodeWord false 0x3342 = .seImm 3 0x42 ∧ decodeWord false 0x4342 = .sneImm 3 0x42 ∧
    decodeWord false 0x60FF = .ldImm 0 0xFF ∧ decodeWord false 0x7F03 = .addImm 15 0x03 ∧ decodeWord false 0xC30F = .rnd 3 0x0F := by decide

/-- F12, F14, A4 to A7 and G3: the words of an x and a y. -/
theorem test_decode_xy : decodeWord false 0x5120 = .seReg 1 2 ∧ decodeWord false 0x9120 = .sneReg 1 2 ∧
    decodeWord false 0x8150 = .ldReg 1 5 ∧ decodeWord false 0x8121 = .orReg 1 2 ∧ decodeWord false 0x8122 = .andReg 1 2 ∧
    decodeWord false 0x8123 = .xorReg 1 2 ∧ decodeWord false 0xD013 = .drw 0 1 3 := by decide

/-- A9, A13, A15, A16 and A18: the words of the flag-setting kinds. -/
theorem test_decode_flagged : decodeWord false 0x8124 = .addReg 1 2 ∧ decodeWord false 0x8125 = .subReg 1 2 ∧
    decodeWord false 0x8106 = .shr 1 0 ∧ decodeWord false 0x8127 = .subnReg 1 2 ∧ decodeWord false 0x810E = .shl 1 0 := by decide

/-- K1, K3, T1, K5, T2, T3, M2, M5, M9, M14 and M17: the words of one register. -/
theorem test_decode_x : decodeWord false 0xE19E = .skp 1 ∧ decodeWord false 0xE1A1 = .sknp 1 ∧ decodeWord false 0xF507 = .ldVxDT 5 ∧
    decodeWord false 0xF30A = .ldVxK 3 ∧ decodeWord false 0xF015 = .ldDTVx 0 ∧ decodeWord false 0xF218 = .ldSTVx 2 ∧
    decodeWord false 0xF21E = .addI 2 ∧ decodeWord false 0xF429 = .ldF 4 ∧ decodeWord false 0xF033 = .ldB 0 ∧
    decodeWord false 0xF255 = .stm 2 ∧ decodeWord false 0xF265 = .ldm 2 := by decide

/-- V6 to V11 and E4: words of the UNKNOWN space. -/
theorem test_decode_unknown : decodeWord false 0x8008 = .unknown 0x8008 ∧ decodeWord false 0x0000 = .unknown 0x0000 ∧
    decodeWord false 0x0123 = .unknown 0x0123 ∧ decodeWord false 0xE000 = .unknown 0xE000 ∧
    decodeWord false 0xF000 = .unknown 0xF000 ∧ decodeWord false 0x80FF = .unknown 0x80FF ∧
    decodeWord false 0xF0FF = .unknown 0xF0FF := by decide

/-- V12 to V15: don't-care bits are ignored by default and make UNKNOWN under STRICT_DECODE. -/
theorem test_decode_dontCare : decodeWord false 0x01E0 = .cls ∧ decodeWord false 0x5121 = .seReg 1 2 ∧
    decodeWord false 0x912F = .sneReg 1 2 ∧ decodeWord false 0x81F6 = .shr 1 15 ∧ decodeWord true 0x01E0 = .unknown 0x01E0 ∧
    decodeWord true 0x5121 = .unknown 0x5121 ∧ decodeWord true 0x912F = .unknown 0x912F ∧
    decodeWord true 0x81F6 = .unknown 0x81F6 := by decide

/-- R55 and R70: the high byte comes first; one byte is no instruction. -/
theorem test_decode_bytes : decodeBytes false [0x12, 0x34, 0x56] = .ok (.jp 0x234, [0x56]) ∧
    decodeBytes false [0x12] = .error .truncated ∧ decodeTableWord 16 0xF255 = some (.stm 2) := ⟨rfl, rfl, rfl⟩

/-! ## The machine the vectors start from -/

/-- The parameters of 95_test_vectors.md: R6's defaults, and `mask` for the two policies without one. -/
def vectorParams : Params := { Params.default with fontDigitPolicy := .mask, keyIndexPolicy := .mask }

/-- The start state of 95_test_vectors.md. -/
def s0 : State := State.resetWith vectorParams

/-- Registers set one after another. -/
def State.regs (s : State) : List (Nibble × Byte) → State
  | [] => s
  | (x, v) :: rs => State.regs (s.setReg x v) rs

/-- The start state with some registers, I, and the word that the next step fetches at 0x200. -/
def at200 (w : Nat) (rs : List (Nibble × Byte)) (i : Word := 0) : State :=
  ({ State.regs s0 rs with I := i }).withFetchWord 16 w

/-- A step answers a next state with a property. -/
def gives (r : Result) (p : State → Bool) : Bool :=
  match r with
  | .next t => p t
  | .fault _ => false
  | .refused _ => false

/-- A step raises an error. -/
def raises (r : Result) (f : Fault) : Bool :=
  match r with
  | .next _ => false
  | .fault g => g == f
  | .refused _ => false

/-! ## One step per instruction -/

/-- G10, V3: CLS at 0xFFE turns pixels off; pc = 0x1000. -/
theorem test_cls : gives (step ({ s0 with pc := 0xFFE, disp := togglePixel s0.disp 3 5 }.withFetchWord 16 0x00E0))
    (fun t => t.pc == 0x1000 && pixel t.disp 3 5 == false) = true := by decide

/-- F4: RET. -/
theorem test_ret : gives (step ({ s0 with pc := 0x210, sp := 1, stack := s0.stack.set 0 0x206 }.withFetchWord 16 0x00EE))
    (fun t => t.pc == 0x206 && t.sp == 0 && t.stack[0] == 0x206) = true := by decide

/-- F5, E3: RET at sp = 0. -/
theorem test_ret_underflow : raises (step (at200 0x00EE [])) (.stackUnderflow 0x200) = true := by decide

/-- F1, V1: JP. -/
theorem test_jp : gives (step (at200 0x1234 [])) (fun t => t.pc == 0x234) = true := by decide

/-- F7: CALL into the last slot. -/
theorem test_call : gives (step ({ s0 with pc := 0x300, sp := 15 }.withFetchWord 16 0x2400))
    (fun t => t.pc == 0x400 && t.sp == 16 && t.stack[15] == 0x302 && t.stack[14] == 0) = true := by decide

/-- F6, E2: CALL at sp = 16. -/
theorem test_call_overflow : raises (step ({ s0 with sp := 16 }.withFetchWord 16 0x2400)) (.stackOverflow 0x200) = true := by decide

/-- F8, F9: SE Vx,kk taken and not. -/
theorem test_seImm : gives (step (at200 0x3342 [(3, 0x42)])) (fun t => t.pc == 0x204) = true ∧
    gives (step (at200 0x3342 [(3, 0x41)])) (fun t => t.pc == 0x202) = true := by decide

/-- F10, F11: SNE Vx,kk taken and not. -/
theorem test_sneImm : gives (step (at200 0x4342 [(3, 0x41)])) (fun t => t.pc == 0x204) = true ∧
    gives (step (at200 0x4342 [(3, 0x42)])) (fun t => t.pc == 0x202) = true := by decide

/-- V13, F12: SE Vx,Vy, the low nibble ignored; and not taken. -/
theorem test_seReg : gives (step (at200 0x5121 [(1, 5), (2, 5)])) (fun t => t.pc == 0x204) = true ∧
    gives (step (at200 0x5120 [(1, 5), (2, 6)])) (fun t => t.pc == 0x202) = true := by decide

/-- V14, F15: SNE Vx,Vy, the low nibble ignored; and not taken for x = y. -/
theorem test_sneReg : gives (step (at200 0x912F [(1, 5), (2, 6)])) (fun t => t.pc == 0x204) = true ∧
    gives (step (at200 0x9110 [(1, 5)])) (fun t => t.pc == 0x202) = true := by decide

/-- A1: LD Vx,kk. -/
theorem test_ldImm : gives (step (at200 0x60FF [])) (fun t => t.reg 0 == 0xFF && t.pc == 0x202) = true := by decide

/-- W6, A3: ADD Vx,kk wraps and leaves VF, and VF may be the destination. -/
theorem test_addImm : gives (step (at200 0x7002 [(0, 0xFF), (15, 0xAA)])) (fun t => t.reg 0 == 0x01 && t.reg 15 == 0xAA) = true ∧
    gives (step (at200 0x7F03 [(15, 0xFE)])) (fun t => t.reg 15 == 0x01) = true := by decide

/-- A4: LD Vx,Vy. -/
theorem test_ldReg : gives (step (at200 0x8150 [(5, 0x33)])) (fun t => t.reg 1 == 0x33 && t.reg 5 == 0x33) = true := by decide

/-- A5: OR, VF unchanged. -/
theorem test_orReg : gives (step (at200 0x8121 [(1, 0x0F), (2, 0xF0), (15, 7)]))
    (fun t => t.reg 1 == 0xFF && t.reg 15 == 7) = true := by decide

/-- A6: AND. -/
theorem test_andReg : gives (step (at200 0x8122 [(1, 0x3C), (2, 0x0F)])) (fun t => t.reg 1 == 0x0C) = true := by decide

/-- A7, A8: XOR, and of a register with itself. -/
theorem test_xorReg : gives (step (at200 0x8123 [(1, 0xFF), (2, 0x0F)])) (fun t => t.reg 1 == 0xF0) = true ∧
    gives (step (at200 0x8113 [(1, 0x5A)])) (fun t => t.reg 1 == 0x00) = true := by decide

/-- A9, A10: ADD with carry; the old VF is the addend. -/
theorem test_addReg : gives (step (at200 0x8124 [(1, 0xF0), (2, 0x20)])) (fun t => t.reg 1 == 0x10 && t.reg 15 == 1) = true ∧
    gives (step (at200 0x81F4 [(1, 0x10), (15, 0xF0)])) (fun t => t.reg 1 == 0x00 && t.reg 15 == 1) = true := by decide

/-- A11, A12: ADD VF,V1 under both settings of VF_ORDER. -/
theorem test_addReg_vf : gives (step (at200 0x8F14 [(15, 0xF0), (1, 0x20)])) (fun t => t.reg 15 == 0x10) = true ∧
    gives (step { at200 0x8F14 [(15, 0xF0), (1, 0x20)] with params := { vectorParams with vfOrder := .flagLast } })
      (fun t => t.reg 15 == 0x01) = true := by decide

/-- A13, A14: SUB with and without a borrow. -/
theorem test_subReg : gives (step (at200 0x8125 [(1, 0x10), (2, 0x20)])) (fun t => t.reg 1 == 0xF0 && t.reg 15 == 0) = true ∧
    gives (step (at200 0x8125 [(1, 5), (2, 5)])) (fun t => t.reg 1 == 0 && t.reg 15 == 1) = true := by decide

/-- V15, A20: SHR ignores y; SHR of VF under result_last. -/
theorem test_shr : gives (step (at200 0x81F6 [(1, 0x05)])) (fun t => t.reg 1 == 0x02 && t.reg 15 == 1) = true ∧
    gives (step (at200 0x8F06 [(15, 0x03)])) (fun t => t.reg 15 == 0x01) = true := by decide

/-- A16, A17: SUBN with and without a borrow. -/
theorem test_subnReg : gives (step (at200 0x8127 [(1, 0x10), (2, 0x30)])) (fun t => t.reg 1 == 0x20 && t.reg 15 == 1) = true ∧
    gives (step (at200 0x8127 [(1, 0x01), (2, 0x00)])) (fun t => t.reg 1 == 0xFF && t.reg 15 == 0) = true := by decide

/-- A18, A19: SHL. -/
theorem test_shl : gives (step (at200 0x810E [(1, 0x81)])) (fun t => t.reg 1 == 0x02 && t.reg 15 == 1) = true ∧
    gives (step (at200 0x810E [(1, 0x7F)])) (fun t => t.reg 1 == 0xFE && t.reg 15 == 0) = true := by decide

/-- M1: LD I,nnn. -/
theorem test_ldI : gives (step (at200 0xA300 [])) (fun t => t.I == 0x0300 && t.pc == 0x202) = true := by decide

/-- F18, F19: JP V0 is not reduced, and reads V0 alone. -/
theorem test_jpV0 : gives (step (at200 0xBF01 [(0, 0xFF)])) (fun t => t.pc == 0x1000) = true ∧
    gives (step (at200 0xB300 [(3, 0x20)])) (fun t => t.pc == 0x300) = true := by decide

/-- A23: RND with kk = 0 gives 0 whatever the draw, and draws once. -/
theorem test_rnd_zero : gives (exec (.rnd 3 0x00) s0) (fun t => t.draws == 1) = true := by decide

/-- G6, G7: DRW of no rows writes VF = 0; a sprite byte out of bounds raises the error. -/
theorem test_drw_edges : gives (step (at200 0xD010 [(15, 0x55)])) (fun t => t.reg 15 == 0) = true ∧
    raises (step (at200 0xD013 [] 0xFFE)) (.memoryOutOfBounds 0x200 0x1000) = true := by decide

/-- How many pixels are on. -/
def pixelsOn (d : Display) : Nat := d.toList.foldl (fun k row => row.toList.foldl (fun k b => if b then k + 1 else k) k) 0

/-- G1: the glyph of 0 at the origin: 14 pixels, and no collision. -/
theorem test_drw : gives (step (at200 0xD015 [(15, 1)] 0x050))
    (fun t => pixelsOn t.disp == 14 && pixel t.disp 0 3 && pixel t.disp 1 3 && !pixel t.disp 1 1 && t.reg 15 == 0) = true := by decide +kernel

/-- K1, K2: SKP. -/
theorem test_skp : gives (step { at200 0xE19E [(1, 7)] with keys := s0.keys.set 7 true }) (fun t => t.pc == 0x204) = true ∧
    gives (step (at200 0xE19E [(1, 7)])) (fun t => t.pc == 0x202) = true := by decide

/-- K3, and K4's key under mask: SKNP. -/
theorem test_sknp : gives (step (at200 0xE1A1 [(1, 7)])) (fun t => t.pc == 0x204) = true ∧
    gives (step { at200 0xE1A1 [(1, 0x17)] with keys := s0.keys.set 7 true }) (fun t => t.pc == 0x202) = true := by decide

/-- T1: LD Vx,DT. -/
theorem test_ldVxDT : gives (step { at200 0xF507 [] with DT := 0x3C }) (fun t => t.reg 5 == 0x3C && t.DT == 0x3C) = true := by decide

/-- K5, K6: LD Vx,K holds the pc and remembers the keypad. -/
theorem test_ldVxK : gives (step { at200 0xF30A [] with keys := s0.keys.set 5 true })
    (fun t => t.pc == 0x200 && t.reg 3 == 0 && t.wait == some ⟨3, s0.keys.set 5 true⟩) = true := by decide

/-- K8: of two fresh keys the lowest; and W8's steps without one change nothing. -/
theorem test_waitStep : gives (step { s0 with wait := some ⟨3, s0.keys⟩, keys := (s0.keys.set 9 true).set 4 true })
      (fun t => t.reg 3 == 4 && t.pc == 0x202 && t.wait == none) = true ∧
    gives (step { s0 with wait := some ⟨3, s0.keys⟩ }) (fun t => t.pc == 0x200 && t.wait == some ⟨3, s0.keys⟩) = true := by decide

/-- T2: LD DT,Vx. -/
theorem test_ldDTVx : gives (step (at200 0xF015 [(0, 5)])) (fun t => t.DT == 5 && t.ST == 0) = true := by decide

/-- T3: LD ST,Vx. -/
theorem test_ldSTVx : gives (step (at200 0xF218 [(2, 0x0A)])) (fun t => t.ST == 10 && t.soundActive && t.DT == 0) = true := by decide

/-- M3, M4: ADD I,Vx past 0xFFF and past 0xFFFF. -/
theorem test_addI : gives (step (at200 0xF01E [(0, 1)] 0x0FFF)) (fun t => t.I == 0x1000) = true ∧
    gives (step (at200 0xF01E [(0, 1)] 0xFFFF)) (fun t => t.I == 0x0000) = true := by decide

/-- M5, M8: LD F,Vx for a digit, and for another byte under mask. -/
theorem test_ldF : gives (step (at200 0xF429 [(4, 0x0A)])) (fun t => t.I == 0x0082) = true ∧
    gives (step (at200 0xF429 [(4, 0x1A)])) (fun t => t.I == 0x0082) = true := by decide

/-- M9, M13: LD B,Vx, and out of bounds. -/
theorem test_ldB : gives (step (at200 0xF033 [(0, 123)] 0x300))
      (fun t => t.byteAt 0x300 == 1 && t.byteAt 0x301 == 2 && t.byteAt 0x302 == 3 && t.I == 0x300) = true ∧
    raises (step (at200 0xF033 [] 0xFFE)) (.memoryOutOfBounds 0x200 0x1000) = true := by decide

/-- M14, M16: LD [I],Vx, and out of bounds. -/
theorem test_stm : gives (step (at200 0xF255 [(0, 1), (1, 2), (2, 3), (3, 4)] 0x400))
      (fun t => t.byteAt 0x400 == 1 && t.byteAt 0x401 == 2 && t.byteAt 0x402 == 3 && t.byteAt 0x403 == 0 && t.I == 0x400) = true ∧
    raises (step (at200 0xFF55 [] 0xFF1)) (.memoryOutOfBounds 0x200 0x1000) = true := by decide

/-- M18, M19: LD Vx,[I] reads the font; and out of bounds. -/
theorem test_ldm : gives (step (at200 0xF165 [(2, 9)] 0x050))
      (fun t => t.reg 0 == 0xF0 && t.reg 1 == 0x90 && t.reg 2 == 9 && t.I == 0x050) = true ∧
    raises (step (at200 0xF065 [] 0x1000)) (.memoryOutOfBounds 0x200 0x1000) = true := by decide

/-- V6: UNKNOWN. -/
theorem test_unknown : raises (step (at200 0x8008 [])) (.invalidInstruction 0x200 0x8008) = true := by decide

/-- V4, V5, V2: the fetch at 0x1000, at 0xFFF and at an odd address. -/
theorem test_fetch : raises (step { s0 with pc := 0x1000 }) (.memoryOutOfBounds 0x1000 0x1000) = true ∧
    raises (step { s0 with pc := 0xFFF }) (.memoryOutOfBounds 0xFFF 0x1000) = true ∧
    gives (step ({ s0 with pc := 0x201 }.withFetchWord 16 0x602A)) (fun t => t.reg 0 == 0x2A && t.pc == 0x203) = true := by decide

/-- V17, V18, V19: a Cycle ticks after the Step, and not after an error. -/
theorem test_cycle : gives (cycle { at200 0x6001 [] with DT := 3 } true) (fun t => t.reg 0 == 1 && t.DT == 2) = true ∧
    gives (cycle { at200 0xF007 [] with DT := 3 } true) (fun t => t.reg 0 == 3 && t.DT == 2) = true ∧
    raises (cycle { at200 0x8008 [] with DT := 3 } true) (.invalidInstruction 0x200 0x8008) = true := by decide

/-- T4, T5, T6: a Tick stops at zero. -/
theorem test_tick : (tick { s0 with DT := 1 }).DT = 0 ∧ (tick { s0 with ST := 2 }).ST = 1 ∧ (tick s0).DT = 0 := by decide

/-- R34: what reset leaves, in the machine the core starts from. -/
theorem test_reset : core.reset.pc = 0x200 ∧ core.reset.sp = 0 ∧ core.reset.byteAt 0x50 = 0xF0 ∧ core.reset.byteAt 0x9F = 0x80 ∧
    core.reset.byteAt 0xA0 = 0 ∧ core.reset.byteAt 0x4F = 0 := ⟨rfl, rfl, rfl, rfl, rfl, rfl⟩

/-! ## Witnesses: states and operands that meet the hypotheses of each obligation, one for each of its clauses -/

theorem witness_DecodeInvertsEncode : Instr.wf false (.unknown 0x8008) = true ∧ Instr.wf true (.unknown 0x01E0) = true ∧
    Instr.wf false (.shr 15 15) = true ∧ Instr.wf true (.shl 15 0) = true ∧ Instr.wf true (.drw 15 15 15) = true := by decide

theorem witness_EncodeInvertsDecode : hasDontCareBit 0x8124 = false ∧ hasDontCareBit 0x5120 = false ∧
    hasDontCareBit 0xFFFF = false := by decide

theorem witness_UnknownSpaceIsExact : decodeWord false 0x0000 = .unknown 0x0000 ∧ decodeWord false 0x800F = .unknown 0x800F ∧
    decodeWord false 0xE0FF = .unknown 0xE0FF ∧ decodeWord false 0xFFFF = .unknown 0xFFFF := by decide

theorem witness_OpcodeTableSelectsKind : ("CLS", 0x00E0#16, 0xF0FF#16) ∈ opcodeTable ∧ 0x0FE0#16 &&& 0xF0FF = 0x00E0 ∧
    mnemonic (decodeWord false 0x8008) = "UNKNOWN" := by decide

theorem witness_UnexaminedBitsDoNotSelect : (0xE#4 = 0xE#4 ∨ 0xE#4 = 0xF#4) ∧ (0xF#4 = 0xE#4 ∨ 0xF#4 = 0xF#4) := by decide

theorem witness_ViewsAreBitFields : 3 < 4 ∧ 7 < 8 ∧ 11 < 12 := by decide

/-- A fetch at the last address where one succeeds. -/
theorem witness_StepRunsDecodedInstruction :
    let s := { s0 with pc := 0xFFE }.withFetchWord 16 0x00E0
    s.wait = none ∧ s.pc.toNat ≤ 0xFFE ∧
      decodeWord s.params.strictDecode (s.byteAt s.pc.toNat ++ s.byteAt (s.pc.toNat + 1)) = .cls := by decide

theorem witness_FetchIsBigEndianAndBounded : s0.wait = none ∧ ({ s0 with pc := 0x1000 } : State).pc.toNat > 0xFFF ∧
    ({ s0 with pc := 0xFFF } : State).pc.toNat = 0xFFF ∧ ({ s0 with pc := 0xFFE } : State).pc.toNat < 0xFFF := by decide

/-- A next state for each shape of request. -/
theorem witness_EachKindMakesItsPcRequest : (∃ t, exec (.seImm 3 0) s0 = .next t) ∧ (∃ t, exec (.jp 0xFFF) s0 = .next t) ∧
    (∃ t, exec (.call 0xFFF) s0 = .next t) ∧ (∃ t, exec (.jpV0 0xFFF) s0 = .next t) ∧
    (∃ t, exec .ret { s0 with sp := 16 } = .next t) ∧ (∃ t, exec (.ldVxK 3) s0 = .next t) ∧
    (∃ t, exec (.stm 3) s0 = .next t) :=
  ⟨⟨_, rfl⟩, ⟨_, rfl⟩, ⟨_, rfl⟩, ⟨_, rfl⟩, ⟨_, rfl⟩, ⟨_, rfl⟩, ⟨_, rfl⟩⟩

/-- A wait on register 3, begun with key 5 held. -/
def waiting (keys : Keypad) : State := { at200 0xF30A [] with wait := some ⟨3, s0.keys.set 5 true⟩, keys := keys }

/-- Key 5 still held is not fresh; key 15 newly pressed is. -/
theorem witness_WaitStepRechecksKeypad :
    (∀ k : Fin 16, ¬ ((waiting (s0.keys.set 5 true)).keys[k.val] = true ∧ (s0.keys.set 5 true)[k.val] = false)) ∧
    (∃ k : Fin 16, (waiting (s0.keys.set 15 true)).keys[k.val] = true ∧ (s0.keys.set 5 true)[k.val] = false) ∧
    (waiting s0.keys).params.keySelect = .lowest ∧ (waiting s0.keys).wait = some ⟨3, s0.keys.set 5 true⟩ := by decide

theorem witness_ReturnPopsTheStack : s0.sp.val = 0 ∧ ({ s0 with sp := 1 } : State).sp.val = 0 + 1 ∧
    ({ s0 with sp := 16 } : State).sp.val = 15 + 1 := by decide

theorem witness_CallPushesReturnAddress : ({ s0 with sp := 16 } : State).sp.val = 16 ∧ ({ s0 with sp := 15 } : State).sp.val < 16 ∧
    14 ≠ ({ s0 with sp := 15 } : State).sp.val := by decide

theorem witness_CallThenReturnComesBack : s0.sp.val < 16 ∧ ({ s0 with sp := 15 } : State).sp.val < 16 := by decide

theorem witness_ImmediateSkips : (State.regs s0 [(3, 0x42)]).reg 3 = 0x42 ∧ (State.regs s0 [(3, 0x41)]).reg 3 ≠ 0x42 := by decide

theorem witness_RegisterSkips : (State.regs s0 [(1, 5), (2, 5)]).reg 1 = (State.regs s0 [(1, 5), (2, 5)]).reg 2 ∧
    (State.regs s0 [(1, 5), (2, 6)]).reg 1 ≠ (State.regs s0 [(1, 5), (2, 6)]).reg 2 := by decide

theorem witness_RegisterLoads : (15#4 : Nibble) ≠ 3#4 := by decide

theorem witness_AddImmediateWraps : (0#4 : Nibble) ≠ 15#4 := by decide

theorem witness_LogicIsBitwise : (15#4 : Nibble) ≠ 1#4 := by decide

/-- The start state under VF_ORDER = flag_last. -/
def flagLast : State := { s0 with params := { vectorParams with vfOrder := .flagLast } }

/-- Away from VF, and with VF the destination under each setting; and a register that is neither. -/
theorem witness_AddRegistersSetsCarry : ((1#4 : Nibble) ≠ 15#4 ∨ s0.params.vfOrder = .resultLast) ∧
    ((15#4 : Nibble) ≠ 15#4 ∨ s0.params.vfOrder = .resultLast) ∧ ((15#4 : Nibble) ≠ 15#4 ∨ flagLast.params.vfOrder = .flagLast) ∧
    (2#4 : Nibble) ≠ 1#4 ∧ (2#4 : Nibble) ≠ 15#4 := by decide

theorem witness_SubtractionsSetNoBorrow : ((14#4 : Nibble) ≠ 15#4 ∨ s0.params.vfOrder = .flagLast) ∧
    ((15#4 : Nibble) ≠ 15#4 ∨ s0.params.vfOrder = .resultLast) ∧ ((15#4 : Nibble) ≠ 15#4 ∨ flagLast.params.vfOrder = .flagLast) ∧
    (0#4 : Nibble) ≠ 14#4 ∧ (0#4 : Nibble) ≠ 15#4 := by decide

theorem witness_ShiftsSetTheBitShiftedOut : ((0#4 : Nibble) ≠ 15#4 ∨ s0.params.vfOrder = .flagLast) ∧
    ((15#4 : Nibble) ≠ 15#4 ∨ s0.params.vfOrder = .resultLast) ∧ ((15#4 : Nibble) ≠ 15#4 ∨ flagLast.params.vfOrder = .flagLast) ∧
    (1#4 : Nibble) ≠ 0#4 ∧ (1#4 : Nibble) ≠ 15#4 := by decide

theorem witness_RandomIsMasked : (15#4 : Nibble) ≠ 3#4 := by decide

/-- The greatest digit, and the least byte that is none, under each policy. -/
theorem witness_GlyphAddressLoads : ((State.regs s0 [(4, 15)]).reg 4).toNat ≤ 0xF ∧ ((State.regs s0 [(4, 16)]).reg 4).toNat > 0xF ∧
    s0.params.fontDigitPolicy = .mask ∧ State.reset.params.fontDigitPolicy = .draw := by decide

/-- The last I that fits three bytes, and the first that does not. -/
theorem witness_DecimalDigitsAreStored : ({ s0 with I := 0xFFE } : State).I.toNat + 2 > 0xFFF ∧
    ({ s0 with I := 0xFFD } : State).MemOk ∧ ({ s0 with I := 0xFFD } : State).I.toNat + 2 ≤ 0xFFF :=
  ⟨by decide, rfl, by decide⟩

theorem witness_RegistersAreDumped : ({ s0 with I := 0xFF1 } : State).I.toNat + (15#4 : Nibble).toNat > 0xFFF ∧
    ({ s0 with I := 0xFF0 } : State).MemOk ∧ ({ s0 with I := 0xFF0 } : State).I.toNat + (15#4 : Nibble).toNat ≤ 0xFFF ∧
    (15#4 : Nibble).toNat ≤ (15#4 : Nibble).toNat := ⟨by decide, rfl, by decide, by decide⟩

theorem witness_RegistersAreLoaded : ({ s0 with I := 0x1000 } : State).I.toNat + (0#4 : Nibble).toNat > 0xFFF ∧
    ({ s0 with I := 0xFFF } : State).I.toNat + (0#4 : Nibble).toNat ≤ 0xFFF ∧ (0#4 : Nibble).toNat ≤ (0#4 : Nibble).toNat ∧
    (0#4 : Nibble).toNat < (1#4 : Nibble).toNat := by decide

theorem witness_DumpThenLoadRestores : ({ s0 with I := 0xFF0 } : State).MemOk ∧
    ({ s0 with I := 0xFF0 } : State).I.toNat + (15#4 : Nibble).toNat ≤ 0xFFF := ⟨rfl, by decide⟩

/-- M21: V0 = 0x00 and V1 = 0xE0 stored over the next word, and a state at the last pc the statement names. -/
theorem witness_StoredCodeIsFetched :
    let s : State := { State.regs s0 [(1, 0xE0)] with I := 0x202 }
    let e : State := { s with pc := 0xFFC, I := 0xFFE }
    (s.MemOk ∧ s.wait = none ∧ s.pc.toNat ≤ 0xFFC ∧ (0#4 : Nibble).toNat < (1#4 : Nibble).toNat ∧
      s.I.toNat + (0#4 : Nibble).toNat = s.pc.toNat + 2 ∧ ∃ t, exec (.stm 1) s = .next t) ∧
    (e.MemOk ∧ e.wait = none ∧ e.pc.toNat ≤ 0xFFC ∧ e.I.toNat + (0#4 : Nibble).toNat = e.pc.toNat + 2 ∧
      ∃ t, exec (.stm 1) e = .next t) :=
  ⟨⟨rfl, rfl, by decide, by decide, by decide, _, rfl⟩, ⟨rfl, rfl, by decide, by decide, _, rfl⟩⟩

/-- G7 and G8, no rows beyond memory, a sprite pixel and a pixel that no sprite bit meets. -/
theorem witness_DrawXorsTheSprite :
    ((3#4 : Nibble) ≠ 0 ∧ ({ s0 with I := 0xFFE } : State).I.toNat + (3#4 : Nibble).toNat - 1 > 0xFFF) ∧
    ({ s0 with I := 0xFFE } : State).I.toNat + (2#4 : Nibble).toNat - 1 ≤ 0xFFF ∧ (0#4 : Nibble) = 0 ∧
    (1 < (2#4 : Nibble).toNat ∧ 7 < 8 ∧ (0 : Fin 32).val = (((State.regs s0 [(1, 31)]).reg 1).toNat + 1) % 32 ∧
      (0 : Fin 64).val = (((State.regs s0 [(0, 57)]).reg 0).toNat + 7) % 64) ∧
    (∀ r < 1, ∀ c < 8, ¬ ((1 : Fin 32).val = ((s0.reg 1).toNat + r) % 32 ∧ (0 : Fin 64).val = ((s0.reg 0).toNat + c) % 64)) := by
  decide

theorem witness_DrawingTwiceRestoresTheDisplay : (0#4 : Nibble) ≠ 15#4 ∧ (1#4 : Nibble) ≠ 15#4 ∧
    (∃ t, exec (.drw 0 1 5) { s0 with I := 0x050 } = .next t) ∧
    ∀ (row : Fin 32) (col : Fin 64), pixel s0.disp row col = false :=
  ⟨by decide, by decide, ⟨_, rfl⟩, fun row col => by simp [pixel, s0, State.resetWith]⟩

/-- The greatest key index, and the least that names no key, under each policy. -/
theorem witness_KeySkips : ((State.regs s0 [(1, 15)]).reg 1).toNat ≤ 0xF ∧ s0.params.keyIndexPolicy = .mask ∧
    ((State.regs s0 [(1, 16)]).reg 1).toNat > 0xF ∧ State.reset.params.keyIndexPolicy = .draw := by decide

theorem witness_FreshKeyEndsTheWait : s0.wait = none ∧ (∃ t, exec (.ldVxK 3) s0 = .next t) ∧ s0.key 15 = false ∧
    (∃ u, setKey { s0 with wait := some ⟨3, s0.keys⟩ } (15#4 : Nibble).toNat true = some u) :=
  ⟨rfl, ⟨_, rfl⟩, rfl, ⟨_, rfl⟩⟩

theorem witness_TimerInstructions : (15#4 : Nibble) ≠ 5#4 := by decide

theorem witness_UnknownRaisesInvalidInstruction : (Session.mk (at200 0x8008 []) .fresh none).machine.wait = none ∧
    (Session.mk (at200 0x8008 []) .fresh none).machine.fetch16 = .ok 0x8008 ∧ isUnknownWord 0x8008 = true := ⟨rfl, rfl, rfl⟩

/-- Each error an instruction has, and the last state without it. -/
theorem witness_ExecCompletesOrRaisesItsOwnError :
    ownError s0 (.unknown 0x8008) = some (.invalidInstruction 0x200 0x8008) ∧
    ownError { s0 with sp := 16 } (.call 0) = some (.stackOverflow 0x200) ∧ ownError { s0 with sp := 15 } (.call 0) = none ∧
    ownError s0 .ret = some (.stackUnderflow 0x200) ∧ ownError { s0 with sp := 1 } .ret = none ∧
    ownError { s0 with I := 0xFFE } (.ldB 0) = some (.memoryOutOfBounds 0x200 0x1000) ∧
    ownError { s0 with I := 0xFFD } (.ldB 0) = none ∧
    ownError { s0 with I := 0x1001 } (.ldm 0) = some (.memoryOutOfBounds 0x200 0x1001) ∧
    ownError { s0 with I := 0xFFFF } (.drw 0 1 0) = none ∧ ownError s0 .cls = none := by decide

theorem witness_ErrorPriority : (waiting s0.keys).wait ≠ none ∧ ({ s0 with pc := 0xFFF } : State).pc.toNat > 0xFFE ∧
    (at200 0x00EE []).wait = none ∧ (at200 0x00EE []).fetch16 = .ok 0x00EE ∧ (at200 0x00E0 []).fetch16 = .ok 0x00E0 :=
  ⟨by decide, by decide, rfl, rfl, rfl⟩

theorem witness_ErrorsCommitNothing : step (Session.mk (at200 0x8008 []) .fresh none).machine =
    .fault (.invalidInstruction 0x200 0x8008) := rfl

/-- A session whose first Step has faulted. -/
def faulted : Session := ⟨s0, .running, some (.invalidInstruction 0x200 0x8008)⟩

theorem witness_FaultRecordIsSticky : faulted.faulted = some (.invalidInstruction 0x200 0x8008) ∧
    ∃ g', faulted.run [.reset, .loadImage [0x00, 0xE0] 0x200, .step, .tick, .readSound] = .ok g' := ⟨rfl, _, rfl⟩

theorem witness_InstructionsWriteOnlyTheirComponents : (∃ t, exec (.addReg 1 2) s0 = .next t) ∧
    writesReg (.addReg 1 2) 2#4 = false ∧ writesReg (.ldm 14) 15#4 = false := ⟨⟨_, rfl⟩, rfl, rfl⟩

theorem witness_NoInstructionReadsTheSoundTimer : ∃ t, exec (.ldVxDT 1) { s0 with ST := 9 } = .next t := ⟨_, rfl⟩

theorem witness_OnlyDrawReadsTheDisplay : (∀ x y n : Nibble, Instr.cls ≠ .drw x y n) ∧ ∃ t, exec .cls s0 = .next t :=
  ⟨(fun _ _ _ h => nomatch h), _, rfl⟩

theorem witness_ResetValues : (0x4F < vectorParams.fontBase.toNat ∨ vectorParams.fontBase.toNat + 80 ≤ 0x4F) ∧
    (0xA0 < vectorParams.fontBase.toNat ∨ vectorParams.fontBase.toNat + 80 ≤ 0xA0) ∧ 79 < fontBytes.length := by decide

theorem witness_FontIsInMemoryAfterReset : 15 < 16 ∧ 4 < 5 := by decide

/-- Each operation answers in some session; a Step and a Cycle also where they raise an error. -/
theorem witness_LoadImageWritesTheImage_phase :
    (∃ g' r, faulted.apply .reset = .ok (g', r)) ∧ (∃ g' r, (Session.mk (at200 0x60FF []) .fresh none).apply .step = .ok (g', r)) ∧
    (∃ g' r, (Session.mk (at200 0x8008 []) .fresh none).apply .step = .ok (g', r)) ∧
    (∃ g' r, (Session.mk (at200 0x8008 []) .fresh none).apply (.cycle true) = .ok (g', r)) ∧
    (∃ g' r, (Session.mk s0 .fresh none).apply (.loadImage [0x00] 0x1000) = .ok (g', r)) ∧
    (∃ g' r, faulted.apply .tick = .ok (g', r)) ∧ (∃ g' r, faulted.apply (.setKey 15 true) = .ok (g', r)) ∧
    (∃ g' r, faulted.apply .readDisplay = .ok (g', r)) ∧ (∃ g' r, faulted.apply .readSound = .ok (g', r)) :=
  ⟨⟨_, _, rfl⟩, ⟨_, _, rfl⟩, ⟨_, _, rfl⟩, ⟨_, _, rfl⟩, ⟨_, _, rfl⟩, ⟨_, _, rfl⟩, ⟨_, _, rfl⟩, ⟨_, _, rfl⟩, ⟨_, _, rfl⟩⟩

/-- E6 and E7 at the edge: 4096 is the last sum that fits. -/
theorem witness_LoadImageWritesTheImage : faulted.phase = .running ∧ (Session.mk s0 .fresh none).phase = .fresh ∧ s0.MemOk ∧
    0xFFF + [0x00#8, 0xE0#8].length > 4096 ∧ 0xFFE + [0x00#8, 0xE0#8].length ≤ 4096 := ⟨rfl, rfl, rfl, by decide, by decide⟩

theorem witness_SetKeyWritesOneKey : 16 ≥ 16 ∧ 15 < 16 := by decide

theorem witness_CycleIsStepThenTick : (∃ t, step (at200 0x6001 []) = .next t) ∧
    step (at200 0x8008 []) = .fault (.invalidInstruction 0x200 0x8008) := ⟨⟨_, rfl⟩, rfl⟩

/-- The halt loop at 0xFFE, the last place for one. -/
theorem witness_HaltLoopStepsToItself :
    let s := { s0 with pc := 0xFFE }.withFetchWord 16 0x1FFE
    s.wait = none ∧ s.pc.toNat = (0xFFE#12).toNat ∧ s.pc.toNat ≤ 0xFFE ∧
      s.byteAt s.pc.toNat ++ s.byteAt (s.pc.toNat + 1) = 0x1000#16 ||| (0xFFE#12).setWidth 16 := by decide

theorem witness_MemoryReadsAsLastWritten : (at200 0x60FF []).MemOk ∧ 4095 < 4096 := ⟨rfl, by decide⟩

/-- The invariant of a running machine. -/
theorem at200_inv : (at200 0x60FF []).Inv :=
  ⟨rfl, by decide, fun j _ hj => absurd hj (Nat.not_lt_zero j), fun _ h => by cases h⟩

/-- The invariant of a waiting machine. -/
theorem waiting_inv : (waiting s0.keys).Inv :=
  have hf : (waiting s0.keys).fetch16 = .ok 0xF30A := rfl
  ⟨rfl, by decide, fun j _ hj => absurd hj (Nat.not_lt_zero j), fun w h => ⟨0xF30A, hf, by cases h; rfl⟩⟩

theorem witness_StepKeepsTheInvariant : (at200 0x60FF []).Inv ∧ (∃ t, step (at200 0x60FF []) = .next t) ∧
    (waiting s0.keys).Inv ∧ ∃ t, step (waiting s0.keys) = .next t :=
  ⟨at200_inv, ⟨_, rfl⟩, waiting_inv, _, rfl⟩

theorem witness_EveryScheduleKeepsTheInvariant : (Session.mk (at200 0x60FF []) .fresh none).Inv ∧
    ∃ g', (Session.mk (at200 0x60FF []) .fresh none).run
      [.loadImage [0x12, 0x00] 0x202, .step, .setKey 15 true, .tick, .cycle true, .reset] = .ok g' :=
  ⟨⟨at200_inv, fun _ => rfl⟩, _, rfl⟩

theorem witness_MarkerAgreesWithReissue : (waiting s0.keys).Inv ∧ (waiting s0.keys).wait = some ⟨3, s0.keys.set 5 true⟩ ∧
    freshKeys (waiting s0.keys).keys (s0.keys.set 5 true) = [] := ⟨waiting_inv, rfl, by decide⟩

end Sys2Proof.Tests
end

section
/-! The state after reset (R34), one component at a time, for every setting of the parameters. -/

namespace Sys2Proof.Machine

section resetByte
variable (fontBase : Word)

theorem resetByte_of_lt {a : Nat} (h : a < fontBase.toNat) : resetByte fontBase a = 0 :=
  if_neg (Nat.not_le_of_lt h)

theorem resetByte_fontBase_add (j : Nat) : resetByte fontBase (fontBase.toNat + j) = fontBytes.getD j 0 := by
  rw [resetByte, if_pos (Nat.le_add_right _ j), Nat.add_sub_cancel_left]

/-- The font has 16 glyphs of 5 bytes (R176). -/
theorem length_fontBytes : fontBytes.length = 80 := rfl

theorem resetByte_fontByte {j : Nat} (h : j < fontBytes.length) :
    resetByte fontBase (fontBase.toNat + j) = fontBytes[j] := by
  rw [resetByte_fontBase_add, List.getD_eq_getElem _ _ h]

theorem resetByte_of_fontEnd_le {a : Nat} (h : fontBase.toNat + 80 ≤ a) : resetByte fontBase a = 0 := by
  obtain ⟨k, rfl⟩ := Nat.exists_eq_add_of_le h
  rw [Nat.add_assoc, resetByte_fontBase_add]
  exact List.getD_eq_default _ _ (length_fontBytes ▸ Nat.le_add_right 80 k)

end resetByte

section resetWith
variable (p : Params)

/-- Reset lists no byte of memory, so that every address reads as its reset contents. -/
@[simp] theorem resetWith_byteAt (a : Nat) : (State.resetWith p).byteAt a = resetByte p.fontBase a := rfl

@[simp] theorem resetWith_reg (j : Nibble) : (State.resetWith p).reg j = 0 := Vector.getElem_replicate j.isLt

@[simp] theorem resetWith_stack (j : Nat) (h : j < 16) : (State.resetWith p).stack[j] = 0 := Vector.getElem_replicate h

@[simp] theorem resetWith_key (k : Nibble) : (State.resetWith p).key k = false := Vector.getElem_replicate k.isLt

@[simp] theorem resetWith_pixel (row : Fin 32) (col : Fin 64) : pixel (State.resetWith p).disp row col = false := by
  simp [pixel, State.resetWith]

theorem resetWith_byteAt_outside_font (a : Nat) (h : a < p.fontBase.toNat ∨ p.fontBase.toNat + 80 ≤ a) :
    (State.resetWith p).byteAt a = 0 := by
  rw [resetWith_byteAt]
  obtain below | above := h
  · exact resetByte_of_lt _ below
  · exact resetByte_of_fontEnd_le _ above

theorem resetWith_byteAt_font (j : Nat) (h : j < fontBytes.length) :
    (State.resetWith p).byteAt (p.fontBase.toNat + j) = fontBytes[j] := by
  rw [resetWith_byteAt, resetByte_fontByte]

end resetWith

/-- Settles O48: every component of R34's table; memory by address below, in and above the font. -/
theorem resetValues : Obligations.ResetValues := by
  rintro p s rfl
  exact ⟨resetWith_reg p, rfl, rfl, rfl, resetWith_stack p, rfl, rfl, resetWith_key p, resetWith_pixel p, rfl,
    resetWith_byteAt_outside_font p, resetWith_byteAt_font p, length_fontBytes⟩

end Sys2Proof.Machine
end

section
/-! The fetch (R55, R102): the step it fails, and the word it gives as a number. -/

namespace Sys2Proof.Machine

/-- The high byte first: a word of two bytes as a number (R55). -/
theorem toNat_byteAppend (hi lo : Byte) : (hi ++ lo).toNat = 256 * hi.toNat + lo.toNat := by
  rw [BitVec.toNat_append, append_toNat_eq _ lo.isLt]
  omega

/-- A step whose fetch fails raises MemoryOutOfBounds at the address the fetch reports (R102). -/
theorem step_of_fetch16_error {s : State} {a : Nat} (hw : s.wait = none) (hf : s.fetch16 = .error a) :
    step s = .fault (.memoryOutOfBounds s.pc a) := by
  simp only [step, hw, hf, raise]

/-- Settles O9: above 0xFFE the failing fetch reports `max pc 4096`, which is pc itself except at 0xFFF, where it is pc + 1. -/
theorem fetchIsBigEndianAndBounded : Obligations.FetchIsBigEndianAndBounded := by
  intro s hw
  have fails (h : s.pc.toNat > 0xFFE) : step s = .fault (.memoryOutOfBounds s.pc (max s.pc.toNat 4096)) :=
    step_of_fetch16_error hw (fetch16_error h)
  refine ⟨fun above => ?_, fun last => ?_, fun below => ?_⟩
  · have first : max s.pc.toNat 4096 = s.pc.toNat := Nat.max_eq_left above
    rw [fails (Nat.lt_of_succ_lt above), first]
  · have first : max s.pc.toNat 4096 = s.pc.toNat + 1 := by omega
    rw [fails (by omega), first]
  · exact ⟨_, fetch16_ok (Nat.le_of_lt_succ below), toNat_byteAppend _ _⟩

end Sys2Proof.Machine
end

section
/-! The views of a word bit by bit (R71), beside what `Laws.Decode` says of them as numbers. -/

namespace Sys2Proof

/-- Bit b of a view is the word's bit b places above the view's lowest bit. -/
theorem getLsbD_view (w : Word) (lo : Nat) {n b : Nat} (h : b < n) :
    (w.extractLsb' lo n).getLsbD b = w.getLsbD (lo + b) := by
  rw [BitVec.getLsbD_extractLsb', decide_eq_true h, Bool.true_and]

/-- A view of the low end keeps each bit's place. -/
theorem getLsbD_lowView (w : Word) {n b : Nat} (h : b < n) : (w.extractLsb' 0 n).getLsbD b = w.getLsbD b := by
  rw [getLsbD_view w 0 h, Nat.zero_add]

/-- Settles O6: each view is a slice of the word at its own lowest bit, 12, 8 and 4 for the upper nibbles and 0 for the rest. -/
theorem viewsAreBitFields : Obligations.ViewsAreBitFields := by
  intro w b
  refine ⟨fun inNibble => ?_, fun inByte => ?_, fun inAddress => ?_⟩
  · exact ⟨getLsbD_view w 12 inNibble, getLsbD_view w 8 inNibble, getLsbD_view w 4 inNibble, getLsbD_lowView w inNibble⟩
  · exact getLsbD_lowView w inByte
  · exact getLsbD_lowView w inAddress

end Sys2Proof
end

section
/-! The next-pc request of each kind (R104, R109), from what each shape of meaning makes of the pc. -/

namespace Sys2Proof.Machine

/-- Reading a key leaves the pc alone, whether or not it draws (R204). -/
@[simp] theorem keyAt_pc (s : State) (k : Byte) : (keyAt s k).2.pc = s.pc := by
  obtain kept | drawn := keyAt_snd s k
  · rw [kept]
  · rw [drawn, drawn_pc]

/-- Finding a glyph leaves the pc alone, whether or not it draws (R172). -/
@[simp] theorem glyphAddress_pc (s : State) (d : Byte) : (glyphAddress s d).2.pc = s.pc := by
  obtain kept | drawn := glyphAddress_snd s d
  · rw [kept]
  · rw [drawn, drawn_pc]

section finish
variable {s t u : State}

/-- An instruction whose writes `u` left the pc alone ends where its request says, seen from the pc it started at. -/
theorem pc_of_finish {r : NextPc} (h : u.finish r = .next t) (hpc : u.pc = s.pc) : t.pc = advance s.pc r := by
  rw [finish_eq_next.mp h, hpc]

/-- A skip request advances by 2 or by 4 (R104). -/
theorem pc_of_finish_skip {taken : Bool} (h : u.finish (.skip taken) = .next t) (hpc : u.pc = s.pc) :
    t.pc = s.pc + 2 ∨ t.pc = s.pc + 4 := by
  have moved : t.pc = s.pc + if taken then 4 else 2 := pc_of_finish h hpc
  cases taken
  · exact .inl moved
  · exact .inr moved

/-- A memory transfer that passes its bounds check advances by 2. -/
theorem pc_of_checkIndex_seq {n : Nat} (h : s.checkIndex n (u.finish .seq) = .next t) (hpc : u.pc = s.pc) :
    t.pc = s.pc + 2 :=
  pc_of_finish (checkIndex_next h).2 hpc

end finish

/-- A RET that completes goes to the last live slot of the stack (R121). -/
theorem execRet_pc {s t : State} (h : execRet s = .next t) :
    ∃ (j : Nat) (hj : j < 16), s.sp.val = j + 1 ∧ t.pc = s.stack[j] := by
  by_cases empty : s.sp.val = 0
  · simp [execRet, pop_none empty, raise] at h
  · rw [execRet, pop_some empty] at h
    exact ⟨s.sp.val - 1, by omega, by omega, pc_of_finish h rfl⟩

/-- A CALL that completes goes to its address (R123). -/
theorem execCall_pc {s t : State} {nnn : Addr12} (h : execCall nnn s = .next t) : t.pc = absolute nnn := by
  by_cases room : s.sp.val < 16
  · rw [execCall, push_some room] at h
    exact pc_of_finish h rfl
  · simp [execCall, push_none room, raise] at h

/-- Settles O10: case by case along the kinds, grouped by the request they end in. -/
theorem eachKindMakesItsPcRequest : Obligations.EachKindMakesItsPcRequest := by
  intro s t i h
  cases i with
  | seImm | sneImm | seReg | sneReg => exact pc_of_finish_skip h rfl
  | skp x | sknp x => exact pc_of_finish_skip h (keyAt_pc s (s.reg x))
  | jp nnn =>
    have target : t.pc = absolute nnn := pc_of_finish h rfl
    exact target ▸ toNat_absolute nnn
  | call nnn => exact execCall_pc h ▸ toNat_absolute nnn
  | jpV0 nnn =>
    have target : t.pc = indexedTarget s nnn := pc_of_finish h rfl
    exact target ▸ toNat_indexedTarget s nnn
  | ret => exact execRet_pc h
  | ldVxK => exact pc_of_finish h rfl
  | unknown => cases h
  | cls | ldImm | addImm | ldReg | orReg | andReg | xorReg | rnd | ldI | addI | ldVxDT | ldDTVx | ldSTVx =>
    exact pc_of_finish h rfl
  | addReg | subReg | shr | subnReg | shl => exact pc_of_finish h (writeFlagged_pc s _ _)
  | ldF x => exact pc_of_finish h (glyphAddress_pc s (s.reg x))
  | drw | ldB | stm | ldm => exact pc_of_checkIndex_seq h rfl

end Sys2Proof.Machine
end

section
/-! What the host's Step makes of each answer of `step` (R100, R228), and the words that raise InvalidInstruction (R105). -/

namespace Sys2Proof.Machine

/-- UNKNOWN raises InvalidInstruction in every state (R105). -/
theorem exec_unknown (w : Word) (s : State) : exec (.unknown w) s = .fault (.invalidInstruction s.pc w) := rfl

/-- A word of the UNKNOWN space decodes to UNKNOWN under either setting of STRICT_DECODE (R78). -/
theorem decodeWord_of_isUnknownWord (strict : Bool) {w : Word} (h : isUnknownWord w = true) :
    decodeWord strict w = .unknown w := by
  rw [decodeWord, classify_of_isUnknownWord h, ite_self]

/-- With no wait pending, a step whose fetch succeeds is the execution of the decoded word (R103). -/
theorem step_of_fetch16_ok {s : State} {w : Word} (hw : s.wait = none) (hf : s.fetch16 = .ok w) :
    step s = exec (decodeWord s.params.strictDecode w) s := by
  simp only [step, hw, hf]

section apply
variable {g : Session}

/-- Where `step` answers a state, the host's Step leaves it as the machine. -/
theorem apply_step_of_next {t : State} (h : step g.machine = .next t) :
    g.apply .step = .ok ({ g with machine := t, phase := .running }, .ok) :=
  congrArg g.afterStep h

/-- Where `step` faults, the host's Step reports and records the error, and keeps the machine (R228, R229). -/
theorem apply_step_of_fault {f : Fault} (h : step g.machine = .fault f) :
    g.apply .step = .ok (({ g with phase := .running } : Session).recordFault f, .err f) :=
  congrArg g.afterStep h

/-- Where `step` answers a state, Cycle leaves it, after the Tick if one is due (R108). -/
theorem apply_cycle_of_next {t : State} (h : step g.machine = .next t) (due : Bool) :
    g.apply (.cycle due) = .ok ({ g with machine := if due then tick t else t, phase := .running }, .ok) := by
  have answer : cycle g.machine due = .next (if due then tick t else t) := by rw [cycle, h]
  exact congrArg g.afterStep answer

/-- Where `step` faults, Cycle does no Tick: it reports and records the error, and keeps the machine (R108, R228). -/
theorem apply_cycle_of_fault {f : Fault} (h : step g.machine = .fault f) (due : Bool) :
    g.apply (.cycle due) = .ok (({ g with phase := .running } : Session).recordFault f, .err f) := by
  have answer : cycle g.machine due = .fault f := by rw [cycle, h]
  exact congrArg g.afterStep answer

end apply

/-- Settles O40: the fetched word decodes to UNKNOWN, whose fault the host's Step reports with the machine kept. -/
theorem unknownRaisesInvalidInstruction : Obligations.UnknownRaisesInvalidInstruction := by
  refine ⟨exec_unknown, fun g w hw hf unknown => ?_⟩
  have stops : step g.machine = .fault (.invalidInstruction g.machine.pc w) := by
    rw [step_of_fetch16_ok hw hf, decodeWord_of_isUnknownWord _ unknown, exec_unknown]
  exact ⟨_, apply_step_of_fault stops, rfl⟩

/-- A Tick changes nothing but the timers (R213). -/
theorem tick_frame (s : State) : FrameExcept [.DT, .ST] s (tick s) := by
  intro c hc
  cases c with
  | DT | ST => simp at hc
  | V | mem => exact fun _ => rfl
  | stack => exact ⟨rfl, rfl⟩
  | I | pc | keys | disp | wait | draws | params => rfl

/-- Settles O54: Step and Cycle by the answer of `step`, and Cycle's success by whether a Tick is due. -/
theorem cycleIsStepThenTick : Obligations.CycleIsStepThenTick := by
  intro g due
  refine ⟨fun t answers => ?_, fun t answers => ?_, fun f stops => ?_⟩
  · exact ⟨_, apply_step_of_next answers, rfl, rfl⟩
  · refine ⟨_, apply_cycle_of_next answers due, rfl, ?_, ?_⟩
    · rintro rfl
      rfl
    · rintro rfl
      exact ⟨tick_frame t, toNat_countDown t.DT, toNat_countDown t.ST⟩
  · exact ⟨_, apply_cycle_of_fault stops due, rfl⟩

end Sys2Proof.Machine
end

section
/-! Decoding a word built from fields (R76, R77), and frames along the updates of pc and stack. -/

namespace Sys2Proof

/-- `Decodes` is exact: with `classify_decodes`, a word classifies as precisely the kind it lists (R76, R81). -/
theorem classify_of_decodes {w : Word} {i : Instr} (h : Decodes w i) : classify w = i := by
  cases h with
  | cls | ret => simp [classify, classifyGroup0]
  | ldReg | orReg | andReg | xorReg | addReg | subReg | shr | subnReg | shl => simp [classify, classifyGroup8]
  | skp | sknp => simp [classify, classifyGroupE]
  | ldVxDT | ldVxK | ldDTVx | ldSTVx | addI | ldF | ldB | stm | ldm => simp [classify, classifyGroupF]
  | jp | call | seImm | sneImm | seReg | ldImm | addImm | sneReg | ldI | jpV0 | rnd | drw => simp [classify]
  | unknown _ inSpace => exact classify_of_isUnknownWord inSpace

/-- STRICT_DECODE makes no difference to a word without a don't-care bit set (R6, U15). -/
theorem decodeWord_of_noDontCareBit (strict : Bool) {w : Word} (h : hasDontCareBit w = false) :
    decodeWord strict w = classify w := by
  simp [decodeWord, h]

/-- Only groups 0, 5, 8 and 9 have don't-care bits (R77, U15). -/
theorem hasDontCareBit_of_group {w : Word} (h : group w ∉ [0x0#4, 0x5#4, 0x8#4, 0x9#4]) :
    hasDontCareBit w = false := by
  simp only [List.mem_cons, List.not_mem_nil, or_false, not_or] at h
  obtain ⟨h0, h5, h8, h9⟩ := h
  simp [hasDontCareBit_views, h0, h5, h8, h9]

/-- Outside the groups with don't-care bits, a word decodes as listed under either setting of STRICT_DECODE. -/
theorem decodeWord_of_decodes (strict : Bool) {w : Word} {i : Instr} (h : Decodes w i)
    (hg : group w ∉ [0x0#4, 0x5#4, 0x8#4, 0x9#4]) : decodeWord strict w = i := by
  rw [decodeWord_of_noDontCareBit strict (hasDontCareBit_of_group hg), classify_of_decodes h]

/-- By default every word decodes as listed. -/
theorem decodeWord_false_of_decodes {w : Word} {i : Instr} (h : Decodes w i) : decodeWord false w = i := by
  rw [decodeWord_false, classify_of_decodes h]

end Sys2Proof

namespace Sys2Proof.Machine

section frame
variable {cs : List Component} {s u : State}

theorem frameExcept_refl (cs : List Component) (s : State) : FrameExcept cs s s := by
  intro c _
  cases c with
  | V | mem => exact fun _ => rfl
  | stack => exact ⟨rfl, rfl⟩
  | I | pc | DT | ST | keys | disp | wait | draws | params => rfl

/-- Where a frame leaves the pc open, the pc may be set last. -/
theorem frameExcept_withPc (h : FrameExcept cs s u) (hc : .pc ∈ cs) (p : Word) :
    FrameExcept cs s { u with pc := p } := by
  intro c out
  cases c with
  | pc => exact absurd hc out
  | V | I | stack | DT | ST | mem | keys | disp | wait | draws | params => exact h _ out

/-- Where a frame leaves the stack open, the stack pointer and the slots may be set last. -/
theorem frameExcept_withStack (h : FrameExcept cs s u) (hc : .stack ∈ cs) (sp : Fin 17) (stack : Vector Word 16) :
    FrameExcept cs s { u with sp := sp, stack := stack } := by
  intro c out
  cases c with
  | stack => exact absurd hc out
  | V | I | pc | DT | ST | mem | keys | disp | wait | draws | params => exact h _ out

/-- What RET and CALL write, the pc and the stack, and nothing else (R121, R123). -/
theorem frameExcept_pc_stack (s : State) (p : Word) (sp : Fin 17) (stack : Vector Word 16) :
    FrameExcept [.pc, .stack] s { s with pc := p, sp := sp, stack := stack } :=
  frameExcept_withPc (frameExcept_withStack (frameExcept_refl _ s) (by simp) sp stack) (by simp) p

/-- An instruction that only makes a next-pc request changes nothing but the pc (R104). -/
theorem finish_next (s : State) (r : NextPc) :
    ∃ t : State, s.finish r = .next t ∧ t.pc = advance s.pc r ∧ FrameExcept [.pc] s t :=
  ⟨_, rfl, rfl, frameExcept_withPc (frameExcept_refl _ s) List.mem_cons_self _⟩

end frame

end Sys2Proof.Machine
end

section
/-! Jumps, calls and returns (R121 to R123, R128). -/

namespace Sys2Proof.Machine

/-- RET at depth 0 raises StackUnderflow (R121). -/
theorem exec_ret_of_sp_zero {s : State} (h : s.sp.val = 0) : exec .ret s = .fault (.stackUnderflow s.pc) := by
  rw [exec, execRet, pop_none h, raise]

/-- RET at depth j + 1 goes to slot j, and leaves the slot as it was (R121, D25). -/
theorem exec_ret_of_sp_succ {s : State} {j : Nat} (hj : j < 16) (h : s.sp.val = j + 1) :
    exec .ret s = .next { s with pc := s.stack[j], sp := ⟨j, by omega⟩ } := by
  have live : s.sp.val ≠ 0 := by omega
  simp [exec, execRet, pop_some live, h, State.finish, advance]

/-- CALL at depth 16 raises StackOverflow (R123). -/
theorem exec_call_of_full {s : State} (nnn : Addr12) (h : ¬ s.sp.val < 16) :
    exec (.call nnn) s = .fault (.stackOverflow s.pc) := by
  rw [exec, execCall, push_none h, raise]

/-- CALL below depth 16 fills the free slot with the address of the next instruction and jumps (R123). -/
theorem exec_call_of_room {s : State} (nnn : Addr12) (h : s.sp.val < 16) :
    exec (.call nnn) s = .next { s with
      pc := absolute nnn, sp := ⟨s.sp.val + 1, by omega⟩, stack := s.stack.set s.sp.val (s.pc + 2) h } := by
  rw [exec, execCall, push_some h]
  rfl

/-- Settles O12: 0x00EE has no don't-care bit, and RET is split by whether the stack is empty. -/
theorem returnPopsTheStack : Obligations.ReturnPopsTheStack := by
  refine ⟨fun strict => ?_, fun z => decodeWord_false_of_decodes (.ret z), fun s => ⟨exec_ret_of_sp_zero, ?_⟩⟩
  · exact (decodeWord_of_noDontCareBit strict (by decide)).trans (classify_of_decodes (.ret 0))
  · intro j hj depth
    exact ⟨_, exec_ret_of_sp_succ hj depth, rfl, rfl, rfl, frameExcept_pc_stack s _ _ s.stack⟩

/-- Settles O13: both jumps only set the pc, to the numbers that `absolute` and `indexedTarget` are. -/
theorem jumpsSetThePc : Obligations.JumpsSetThePc := by
  refine ⟨fun strict nnn => ⟨?_, ?_⟩, fun nnn s => ⟨?_, ?_⟩⟩
  · exact decodeWord_of_decodes strict (.jp nnn) (by simp)
  · exact decodeWord_of_decodes strict (.jpV0 nnn) (by simp)
  · obtain ⟨t, runs, target, frame⟩ := finish_next s (.target (absolute nnn))
    exact ⟨t, runs, target ▸ toNat_absolute nnn, frame⟩
  · obtain ⟨t, runs, target, frame⟩ := finish_next s (.target (indexedTarget s nnn))
    exact ⟨t, runs, target ▸ toNat_indexedTarget s nnn, frame⟩

/-- Settles O14: CALL is split by whether a slot is free; the slot it fills is the only one that changes. -/
theorem callPushesReturnAddress : Obligations.CallPushesReturnAddress := by
  refine ⟨fun strict nnn => ?_, fun nnn s => ⟨fun full => ?_, fun room => ?_⟩⟩
  · exact decodeWord_of_decodes strict (.call nnn) (by simp)
  · exact exec_call_of_full nnn (by omega)
  · refine ⟨_, exec_call_of_room nnn room, toNat_absolute nnn, rfl, ?_, ?_, frameExcept_pc_stack s _ _ _⟩
    · exact Vector.getElem_set_self room
    · intro j hj other
      exact Vector.getElem_set_ne room hj other.symm

end Sys2Proof.Machine
end

section
/-! The skips on a comparison (R124 to R127). -/

namespace Sys2Proof.Machine

section skip
variable (s : State) (a b : Byte)

/-- A skip on equality (R124, R126). -/
theorem finish_skip_beq : ∃ t : State, s.finish (.skip (a == b)) = .next t ∧
    (a = b → t.pc = s.pc + 4) ∧ (a ≠ b → t.pc = s.pc + 2) ∧ FrameExcept [.pc] s t := by
  obtain ⟨t, runs, moved, frame⟩ := finish_next s (.skip (a == b))
  refine ⟨t, runs, fun eq => ?_, fun ne => ?_, frame⟩
  · rw [moved, beq_iff_eq.mpr eq]; rfl
  · rw [moved, beq_eq_false_iff_ne.mpr ne]; rfl

/-- A skip on inequality, the complement (R125, R127). -/
theorem finish_skip_bne : ∃ t : State, s.finish (.skip (a != b)) = .next t ∧
    (a ≠ b → t.pc = s.pc + 4) ∧ (a = b → t.pc = s.pc + 2) ∧ FrameExcept [.pc] s t := by
  obtain ⟨t, runs, moved, frame⟩ := finish_next s (.skip (a != b))
  refine ⟨t, runs, fun ne => ?_, fun eq => ?_, frame⟩
  · rw [moved, bne_iff_ne.mpr ne]; rfl
  · rw [moved, bne_eq_false_iff_eq.mpr eq]; rfl

end skip

/-- Settles O16: the two skips compare Vx with kk and do nothing else. -/
theorem immediateSkips : Obligations.ImmediateSkips := by
  refine ⟨fun strict x kk => ⟨?_, ?_⟩, fun x kk s => ⟨?_, ?_⟩⟩
  · exact decodeWord_of_decodes strict (.seImm x kk) (by simp)
  · exact decodeWord_of_decodes strict (.sneImm x kk) (by simp)
  · exact finish_skip_beq s (s.reg x) kk
  · exact finish_skip_bne s (s.reg x) kk

/-- Settles O17: the two skips compare Vx with Vy and do nothing else; `Decodes` lists them for every low nibble. -/
theorem registerSkips : Obligations.RegisterSkips := by
  refine ⟨fun x y n => ⟨?_, ?_⟩, fun x y s => ⟨?_, ?_⟩⟩
  · exact decodeWord_false_of_decodes (.seReg x y n)
  · exact decodeWord_false_of_decodes (.sneReg x y n)
  · exact finish_skip_beq s (s.reg x) (s.reg y)
  · exact finish_skip_bne s (s.reg x) (s.reg y)

end Sys2Proof.Machine
end

section
/-! Register arithmetic and logic (R141 to R153): the two shapes of its meanings, and its results and flags as numbers. -/

namespace Sys2Proof

/-- In group 8 only 8xy6 and 8xyE have don't-care bits: the others decode as listed under either setting (U15). -/
theorem decodeWord_group8_of_decodes (strict : Bool) {x y n : Nibble} {i : Instr}
    (h : Decodes (wordXYN 0x8 x y n) i) (hn : n ∉ [0x6#4, 0xE#4]) : decodeWord strict (wordXYN 0x8 x y n) = i := by
  have clear : hasDontCareBit (wordXYN 0x8 x y n) = false := by
    simp only [List.mem_cons, List.not_mem_nil, or_false, not_or] at hn
    simp [hasDontCareBit_views, hn]
  rw [decodeWord_of_noDontCareBit strict clear, classify_of_decodes h]

end Sys2Proof

namespace Sys2Proof.Machine

section write
variable {cs : List Component} {s u : State}

/-- Where a frame leaves the registers open, a register may be written last. -/
theorem frameExcept_setReg (h : FrameExcept cs s u) (hc : .V ∈ cs) (x : Nibble) (v : Byte) :
    FrameExcept cs s (u.setReg x v) := by
  intro c out
  cases c with
  | V => exact absurd hc out
  | I | pc | stack | DT | ST | mem | keys | disp | wait | draws | params => exact h _ out

/-- Where a frame leaves the registers open, a result and its flag may be written last, in either order (R147). -/
theorem frameExcept_writeFlagged (h : FrameExcept cs s u) (hc : .V ∈ cs) (x : Nibble) (r : Flagged) :
    FrameExcept cs s (u.writeFlagged x r) := by
  unfold State.writeFlagged
  split <;> exact frameExcept_setReg (frameExcept_setReg h hc _ _) hc _ _

/-- An instruction that writes one register and no flag (R141 to R146). -/
theorem finish_setReg (s : State) (x : Nibble) (v : Byte) : ∃ t : State, (s.setReg x v).finish .seq = .next t ∧
    t.reg x = v ∧ (∀ j, j ≠ x → t.reg j = s.reg j) ∧ t.pc = s.pc + 2 ∧ FrameExcept [.V, .pc] s t := by
  refine ⟨_, rfl, ?_, fun j other => ?_, rfl, ?_⟩
  · rw [withPc_reg, setReg_reg, if_pos rfl]
  · rw [withPc_reg, setReg_reg, if_neg other]
  · exact frameExcept_withPc (frameExcept_setReg (frameExcept_refl _ s) (by simp) x v) (by simp) _

/-- An instruction that writes a result of value `m` to Vx and a flag of value `f` to VF (R147). -/
theorem finish_writeFlagged (s : State) (x : Nibble) {r : Flagged} {m f : Nat} (hres : r.res.toNat = m)
    (hflag : (flagByte r.flag).toNat = f) : ∃ t : State, (s.writeFlagged x r).finish .seq = .next t ∧
      (x ≠ 15#4 ∨ s.params.vfOrder = .resultLast → (t.reg x).toNat = m) ∧
      (x ≠ 15#4 ∨ s.params.vfOrder = .flagLast → (t.reg 15#4).toNat = f) ∧
      (∀ j, j ≠ x → j ≠ 15#4 → t.reg j = s.reg j) ∧ t.pc = s.pc + 2 ∧ FrameExcept [.V, .pc] s t := by
  refine ⟨_, rfl, fun stands => ?_, fun stands => ?_, fun j other notVF => ?_, ?_, ?_⟩
  · rw [withPc_reg, writeFlagged_reg, if_pos ⟨rfl, stands⟩, hres]
  · have kept : ¬ (15#4 = x ∧ (x ≠ 15#4 ∨ s.params.vfOrder = .resultLast)) := by
      rintro ⟨rfl, last⟩
      simp [stands.resolve_left (· rfl)] at last
    rw [withPc_reg, writeFlagged_reg, if_neg kept, if_pos rfl, hflag]
  · rw [withPc_reg, writeFlagged_reg, if_neg fun same => other same.1, if_neg notVF]
  · rw [writeFlagged_pc, advance]
  · exact frameExcept_withPc (frameExcept_writeFlagged (frameExcept_refl _ s) (by simp) x r) (by simp) _

end write

/-! ## Results and flags as numbers (R148) -/

/-- A flag byte is 1 or 0. -/
theorem toNat_flagByte (b : Bool) : (flagByte b).toNat = b.toNat := by
  cases b <;> rfl

/-- The flag of a comparison. -/
theorem toNat_flagByte_decide (p : Prop) [Decidable p] : (flagByte (decide p)).toNat = if p then 1 else 0 := by
  rw [toNat_flagByte]
  split <;> simp [*]

/-- The flag of a bit shifted out. -/
theorem toNat_flagByte_getLsbD (a : Byte) (i : Nat) : (flagByte (a.getLsbD i)).toNat = a.toNat / 2 ^ i % 2 := by
  rw [toNat_flagByte, BitVec.getLsbD, Nat.toNat_testBit]

section numbers
variable (a b : Byte)

theorem toNat_addCarry_res : (addCarry a b).res.toNat = (a.toNat + b.toNat) % 256 := BitVec.toNat_add a b

theorem toNat_subNoBorrow_res : (subNoBorrow a b).res.toNat = (a.toNat + 256 - b.toNat) % 256 := by
  simp only [subNoBorrow, BitVec.toNat_sub]
  omega

theorem toNat_shiftRight_res : (shiftRight a).res.toNat = a.toNat / 2 := by
  simp only [shiftRight, BitVec.toNat_ushiftRight, Nat.shiftRight_eq_div_pow, Nat.pow_one]

theorem toNat_shiftLeft_res : (shiftLeft a).res.toNat = a.toNat * 2 % 256 := by
  simp only [shiftLeft, BitVec.toNat_shiftLeft, Nat.shiftLeft_eq, Nat.pow_one]

theorem toNat_shiftRight_flag : (flagByte (shiftRight a).flag).toNat = a.toNat % 2 := by
  rw [shiftRight, toNat_flagByte_getLsbD, Nat.pow_zero, Nat.div_one]

theorem toNat_shiftLeft_flag : (flagByte (shiftLeft a).flag).toNat = a.toNat / 128 := by
  rw [shiftLeft, toNat_flagByte_getLsbD]
  have := a.isLt
  omega

end numbers

/-! ## The instructions -/

/-- Settles O21: ADD Vx,Vy writes the sum and the carry of `addCarry`. -/
theorem addRegistersSetsCarry : Obligations.AddRegistersSetsCarry := by
  refine ⟨fun strict x y => ?_, fun x y s => ?_⟩
  · exact decodeWord_group8_of_decodes strict (.addReg x y) (by decide)
  · exact finish_writeFlagged s x (toNat_addCarry_res _ _) (toNat_flagByte_decide _)

/-- Settles O22: SUB and SUBN are one subtraction, with its operands exchanged. -/
theorem subtractionsSetNoBorrow : Obligations.SubtractionsSetNoBorrow := by
  refine ⟨fun strict x y => ⟨?_, ?_⟩, fun x y s => ⟨?_, ?_⟩⟩
  · exact decodeWord_group8_of_decodes strict (.subReg x y) (by decide)
  · exact decodeWord_group8_of_decodes strict (.subnReg x y) (by decide)
  · exact finish_writeFlagged s x (toNat_subNoBorrow_res _ _) (toNat_flagByte_decide _)
  · exact finish_writeFlagged s x (toNat_subNoBorrow_res _ _) (toNat_flagByte_decide _)

/-- Settles O23: `exec` drops the y of both shifts, so one proof serves every y. -/
theorem shiftsSetTheBitShiftedOut : Obligations.ShiftsSetTheBitShiftedOut := by
  refine ⟨fun x y => ⟨?_, ?_⟩, fun x y s => ⟨?_, ?_⟩⟩
  · exact decodeWord_false_of_decodes (.shr x y)
  · exact decodeWord_false_of_decodes (.shl x y)
  · exact finish_writeFlagged s x (toNat_shiftRight_res _) (toNat_shiftRight_flag _)
  · exact finish_writeFlagged s x (toNat_shiftLeft_res _) (toNat_shiftLeft_flag _)

/-- Settles O18: both loads write Vx and nothing else. -/
theorem registerLoads : Obligations.RegisterLoads := by
  refine ⟨fun strict x y kk => ⟨?_, ?_⟩, fun x y kk s => ⟨?_, ?_⟩⟩
  · exact decodeWord_of_decodes strict (.ldImm x kk) (by simp)
  · exact decodeWord_group8_of_decodes strict (.ldReg x y) (by decide)
  · exact finish_setReg s x kk
  · exact finish_setReg s x (s.reg y)

/-- Settles O19: the byte written to Vx is the sum modulo 256, and no flag is written. -/
theorem addImmediateWraps : Obligations.AddImmediateWraps := by
  refine ⟨fun strict x kk => ?_, fun x kk s => ?_⟩
  · exact decodeWord_of_decodes strict (.addImm x kk) (by simp)
  · obtain ⟨t, runs, sum, rest⟩ := finish_setReg s x (s.reg x + kk)
    exact ⟨t, runs, sum ▸ BitVec.toNat_add _ _, rest⟩

/-- Settles O20: each of the three writes to Vx a byte whose bits are given by the operation on bits. -/
theorem logicIsBitwise : Obligations.LogicIsBitwise := by
  refine ⟨fun strict x y => ⟨?_, ?_, ?_⟩, fun x y s => ⟨?_, ?_, ?_⟩⟩
  · exact decodeWord_group8_of_decodes strict (.orReg x y) (by decide)
  · exact decodeWord_group8_of_decodes strict (.andReg x y) (by decide)
  · exact decodeWord_group8_of_decodes strict (.xorReg x y) (by decide)
  · obtain ⟨t, runs, value, rest⟩ := finish_setReg s x (s.reg x ||| s.reg y)
    exact ⟨t, runs, fun b => value ▸ BitVec.getLsbD_or, rest⟩
  · obtain ⟨t, runs, value, rest⟩ := finish_setReg s x (s.reg x &&& s.reg y)
    exact ⟨t, runs, fun b => value ▸ BitVec.getLsbD_and, rest⟩
  · obtain ⟨t, runs, value, rest⟩ := finish_setReg s x (s.reg x ^^^ s.reg y)
    exact ⟨t, runs, fun b => value ▸ BitVec.getLsbD_xor, rest⟩

end Sys2Proof.Machine
end

section
/-! The index register (R170 to R172): the instructions that only write I, and the frames of writing I and of a draw. -/

namespace Sys2Proof.Machine

section frame
variable {cs : List Component} {s u : State}

/-- Where a frame leaves I open, I may be set last. -/
theorem frameExcept_withI (h : FrameExcept cs s u) (hc : .I ∈ cs) (a : Word) : FrameExcept cs s { u with I := a } := by
  intro c out
  cases c with
  | I => exact absurd hc out
  | V | pc | stack | DT | ST | mem | keys | disp | wait | draws | params => exact h _ out

/-- Where a frame leaves the draw counter open, a free value may be drawn last. -/
theorem frameExcept_drawn (h : FrameExcept cs s u) (hc : .draws ∈ cs) : FrameExcept cs s u.drawn := by
  intro c out
  cases c with
  | draws => exact absurd hc out
  | V | I | pc | stack | DT | ST | mem | keys | disp | wait | params => exact h _ out

/-- Finding a glyph changes at most the draw counter (R172). -/
theorem frameExcept_glyphAddress (hc : .draws ∈ cs) (d : Byte) : FrameExcept cs s (glyphAddress s d).2 := by
  obtain kept | drawn := glyphAddress_snd s d
  · rw [kept]; exact frameExcept_refl cs s
  · rw [drawn]; exact frameExcept_drawn (frameExcept_refl cs s) hc

end frame

/-- An instruction that writes I and nothing else (R170, R171). -/
theorem finish_withI (s : State) (a : Word) : ∃ t : State, ({ s with I := a } : State).finish .seq = .next t ∧
    t.I = a ∧ t.pc = s.pc + 2 ∧ FrameExcept [.I, .pc] s t :=
  ⟨_, rfl, rfl, rfl, frameExcept_withPc (frameExcept_withI (frameExcept_refl _ s) (by simp) a) (by simp) _⟩

/-- Adding a register to I wraps modulo 65536 (R171, D7). -/
theorem toNat_word_add_byte (i : Word) (v : Byte) : (i + v.setWidth 16).toNat = (i.toNat + v.toNat) % 65536 := by
  simp only [BitVec.toNat_add, BitVec.toNat_setWidth]
  omega

/-- LD F,Vx completes with the glyph address in I, and in the state that finding it leaves (R172). -/
theorem exec_ldF (x : Nibble) (s : State) : ∃ t : State, exec (.ldF x) s = .next t ∧
    t.I = (glyphAddress s (s.reg x)).1 ∧ t.draws = (glyphAddress s (s.reg x)).2.draws ∧ t.pc = s.pc + 2 ∧
    FrameExcept [.I, .draws, .pc] s t := by
  refine ⟨_, rfl, rfl, rfl, ?_, ?_⟩
  · exact congrArg (· + 2) (glyphAddress_pc s (s.reg x))
  · have found : FrameExcept [.I, .draws, .pc] s (glyphAddress s (s.reg x)).2 := frameExcept_glyphAddress (by simp) _
    exact frameExcept_withPc (frameExcept_withI found (by simp) _) (by simp) _

/-- Settles O26: a digit and, under `mask`, any other byte have their address from `glyphAddress` without a draw. -/
theorem glyphAddressLoads : Obligations.GlyphAddressLoads := by
  refine ⟨fun strict x => decodeWord_of_decodes strict (.ldF x) (by simp), fun x s => ?_⟩
  obtain ⟨t, runs, index, draws, rest⟩ := exec_ldF x s
  refine ⟨t, runs, fun digit => ?_, fun beyond masked => ?_, rest⟩
  · rw [index, draws, glyphAddress_digit digit]
    exact ⟨rfl, rfl⟩
  · rw [index, draws, glyphAddress_mask (Nat.not_le_of_gt beyond) masked]
    exact ⟨rfl, rfl⟩

/-- Settles O25: both instructions only write I; the sum wraps, and VF is among the registers of the frame. -/
theorem indexLoadAndAdd : Obligations.IndexLoadAndAdd := by
  refine ⟨fun strict x nnn => ⟨?_, ?_⟩, fun x nnn s => ⟨?_, ?_⟩⟩
  · exact decodeWord_of_decodes strict (.ldI nnn) (by simp)
  · exact decodeWord_of_decodes strict (.addI x) (by simp)
  · obtain ⟨t, runs, index, rest⟩ := finish_withI s (absolute nnn)
    exact ⟨t, runs, index ▸ toNat_absolute nnn, rest⟩
  · obtain ⟨t, runs, index, rest⟩ := finish_withI s (s.I + (s.reg x).setWidth 16)
    exact ⟨t, runs, index ▸ toNat_word_add_byte s.I (s.reg x), rest⟩

/-- Settles O49: a byte of the font is at FONT_BASE + 5 d + r, and the two tables agree on all 16 glyphs of 5 rows. -/
theorem fontIsInMemoryAfterReset : Obligations.FontIsInMemoryAfterReset := by
  intro p d r hd hr
  rw [resetWith_byteAt, Nat.add_assoc, resetByte_fontBase_add]
  revert r
  revert d
  decide

end Sys2Proof.Machine
end

section
/-! The memory transfers through I (R173 to R175): the bounds check they share, the store and the load it guards. -/

namespace Sys2Proof.Machine

section frame
variable {cs : List Component} {s u : State}

/-- Where a frame leaves memory open, bytes may be stored last. -/
theorem frameExcept_storeBytes (h : FrameExcept cs s u) (hc : .mem ∈ cs) (a : Nat) (vs : List Byte) :
    FrameExcept cs s (u.storeBytes a vs) := by
  intro c out
  cases c with
  | mem => exact absurd hc out
  | V | I | pc | stack | DT | ST | keys | disp | wait | draws | params => exact h _ out

/-- Where a frame leaves the registers open, all of them may be set last. -/
theorem frameExcept_withV (h : FrameExcept cs s u) (hc : .V ∈ cs) (V : Vector Byte 16) :
    FrameExcept cs s { u with V := V } := by
  intro c out
  cases c with
  | V => exact absurd hc out
  | I | pc | stack | DT | ST | mem | keys | disp | wait | draws | params => exact h _ out

end frame

section transfer
variable {s : State} {n : Nat}

/-- An access of I..I+n that ends above 0xFFF raises MemoryOutOfBounds at the lowest failing address, I itself or 0x1000 (R53,
D6). -/
theorem checkIndex_beyond (h : s.I.toNat + n > 0xFFF) (body : Result) : s.checkIndex (n + 1) body =
    .fault (.memoryOutOfBounds s.pc (if s.I.toNat > 0xFFF then s.I.toNat else 0x1000)) := by
  have lowest : max s.I.toNat 4096 = if s.I.toNat > 0xFFF then s.I.toNat else 0x1000 := by
    split <;> omega
  rw [checkIndex_fail (by omega), lowest]

/-- An access of I..I+n that ends at or below 0xFFF completes with its writes `u` (R53). -/
theorem checkIndex_within (h : s.I.toNat + n ≤ 0xFFF) (u : State) :
    s.checkIndex (n + 1) (u.finish .seq) = .next { u with pc := u.pc + 2 } :=
  checkIndex_pass (.inr (by omega)) _

/-- A checked store of n + 1 bytes at I: they stand at I..I+n, and nothing else changes (R56, R173, R174). -/
theorem checkIndex_storeBytes {vs : List Byte} (len : vs.length = n + 1) (ok : s.MemOk) (h : s.I.toNat + n ≤ 0xFFF) :
    ∃ t : State, s.checkIndex (n + 1) ((s.storeBytes s.I.toNat vs).finish .seq) = .next t ∧
      (∀ (j : Nat) (hj : j < vs.length), t.byteAt (s.I.toNat + j) = vs[j]) ∧
      (∀ a, a < s.I.toNat ∨ s.I.toNat + n < a → t.byteAt a = s.byteAt a) ∧
      t.pc = s.pc + 2 ∧ FrameExcept [.mem, .pc] s t := by
  have fits : s.I.toNat + vs.length ≤ Config.memSize := by rw [len, Config.memSize]; omega
  refine ⟨_, checkIndex_within h _, fun j hj => ?_, fun a outside => ?_, rfl, ?_⟩
  · have inside : s.I.toNat ≤ s.I.toNat + j ∧ s.I.toNat + j < s.I.toNat + vs.length := by omega
    rw [withPc_byteAt, storeBytes_byteAt ok vs fits, dif_pos inside]
    simp only [Nat.add_sub_cancel_left]
  · rw [withPc_byteAt, storeBytes_byteAt ok vs fits, dif_neg (by omega)]
  · exact frameExcept_withPc (frameExcept_storeBytes (frameExcept_refl _ s) (by simp) _ _) (by simp) _

end transfer

/-- A decimal digit fits in a byte. -/
theorem toNat_digitByte {m : Nat} (h : m < 10) : (BitVec.ofNat 8 m).toNat = m := by
  rw [BitVec.toNat_ofNat, Nat.mod_eq_of_lt (by omega)]

/-- Settles O27: the three digits, each below 10, are a checked store of three bytes at I. -/
theorem decimalDigitsAreStored : Obligations.DecimalDigitsAreStored := by
  refine ⟨fun strict x => ?_, fun x s => ⟨fun beyond => ?_, fun ok fits => ?_⟩⟩
  · exact decodeWord_of_decodes strict (.ldB x) (by simp)
  · exact checkIndex_beyond beyond _
  · obtain ⟨t, runs, stored, rest⟩ := checkIndex_storeBytes (vs := decimalDigits (s.reg x)) rfl ok fits
    have byte : (s.reg x).toNat < 256 := (s.reg x).isLt
    have hundreds : t.byteAt s.I.toNat = BitVec.ofNat 8 ((s.reg x).toNat / 100) := stored 0 (Nat.zero_lt_succ 2)
    have tens : t.byteAt (s.I.toNat + 1) = BitVec.ofNat 8 ((s.reg x).toNat / 10 % 10) := stored 1 (Nat.one_lt_succ_succ 1)
    have ones : t.byteAt (s.I.toNat + 2) = BitVec.ofNat 8 ((s.reg x).toNat % 10) := stored 2 (Nat.lt_succ_self 2)
    refine ⟨t, runs, ?_, ?_, ?_, rest⟩
    · rw [hundreds, toNat_digitByte (by omega)]
    · rw [tens, toNat_digitByte (by omega)]
    · rw [ones, toNat_digitByte (by omega)]

/-- Settles O28: V0..Vx are a checked store of x + 1 bytes at I; I is in the frame. -/
theorem registersAreDumped : Obligations.RegistersAreDumped := by
  refine ⟨fun strict x => ?_, fun x s => ⟨fun beyond => ?_, fun ok fits => ?_⟩⟩
  · exact decodeWord_of_decodes strict (.stm x) (by simp)
  · exact checkIndex_beyond beyond _
  · obtain ⟨t, runs, stored, rest⟩ := checkIndex_storeBytes (length_registersUpTo s x) ok fits
    refine ⟨t, runs, fun j upTo => ?_, rest⟩
    have listed : j.toNat < (registersUpTo s x).length := by rw [length_registersUpTo]; omega
    exact (stored j.toNat listed).trans (getElem_registersUpTo s x j.toNat listed)

/-- Settles O29: a checked load of x + 1 bytes at I, register by register; I and memory are in the frame. -/
theorem registersAreLoaded : Obligations.RegistersAreLoaded := by
  refine ⟨fun strict x => ?_, fun x s => ⟨fun beyond => ?_, fun fits => ?_⟩⟩
  · exact decodeWord_of_decodes strict (.ldm x) (by simp)
  · exact checkIndex_beyond beyond _
  · refine ⟨_, checkIndex_within fits _, fun j upTo => ?_, fun j above => ?_, rfl, ?_⟩
    · rw [withPc_reg, loadRegisters_reg, if_pos upTo]
    · rw [withPc_reg, loadRegisters_reg, if_neg (Nat.not_le_of_gt above)]
    · exact frameExcept_withPc (frameExcept_withV (frameExcept_refl _ s) (by simp) _) (by simp) _

end Sys2Proof.Machine
end

section
/-! The display (R190, R191): which pixels the bits of a sprite meet, and when drawing them collides. -/

namespace Sys2Proof.Machine

/-- Where a frame leaves the display open, the display may be set last. -/
theorem frameExcept_withDisp {cs : List Component} {s u : State} (h : FrameExcept cs s u) (hc : .disp ∈ cs)
    (d : Display) : FrameExcept cs s { u with disp := d } := by
  intro c out
  cases c with
  | disp => exact absurd hc out
  | V | I | pc | stack | DT | ST | mem | keys | wait | draws | params => exact h _ out

/-- Settles O32: CLS only sets the display, to the one whose pixels are all off. -/
theorem clearTurnsAllPixelsOff : Obligations.ClearTurnsAllPixelsOff := by
  refine ⟨fun strict => ?_, fun z => decodeWord_false_of_decodes (.cls z), fun s => ?_⟩
  · exact (decodeWord_of_noDontCareBit strict (by decide)).trans (classify_of_decodes (.cls 0))
  · refine ⟨_, rfl, pixel_blankDisplay, rfl, ?_⟩
    exact frameExcept_withPc (frameExcept_withDisp (frameExcept_refl _ s) (by simp) _) (by simp) _

section sprite
variable (sprite : Nat → Byte) (x0 y0 : Byte) {n : Nat}

/-- A pixel has a sprite bit exactly where some 1 bit of the sprite wraps onto it (R191). -/
theorem spriteBit_eq_true {row : Fin 32} {col : Fin 64} : spriteBit sprite x0 y0 n row col = true ↔
    ∃ r < n, ∃ c < 8, row = wrapRow (y0.toNat + r) ∧ col = wrapCol (x0.toNat + c) ∧
      (sprite r).getLsbD (7 - c) = true := by
  simp only [spriteBit, rowBit, List.any_eq_true, List.mem_range, Bool.and_eq_true, decide_eq_true_eq, and_assoc]

/-- No two bits of a sprite of at most 32 rows wrap onto one pixel (R191). -/
theorem eq_of_wrap_eq {r r' c c' : Nat} (hr : r < 32) (hr' : r' < 32) (hc : c < 8) (hc' : c' < 8)
    (row : wrapRow (y0.toNat + r) = wrapRow (y0.toNat + r')) (col : wrapCol (x0.toNat + c) = wrapCol (x0.toNat + c')) :
    r = r' ∧ c = c' := by
  simp only [wrapRow, wrapCol, Fin.mk.injEq] at row col
  omega

/-- The sprite bit of the pixel that bit (r, c) wraps onto is that bit. -/
theorem spriteBit_wrap (hn : n ≤ 32) {r c : Nat} (hr : r < n) (hc : c < 8) :
    spriteBit sprite x0 y0 n (wrapRow (y0.toNat + r)) (wrapCol (x0.toNat + c)) = (sprite r).getLsbD (7 - c) := by
  rw [Bool.eq_iff_iff, spriteBit_eq_true]
  constructor
  · rintro ⟨r', hr', c', hc', row, col, on⟩
    obtain ⟨rfl, rfl⟩ := eq_of_wrap_eq x0 y0 (by omega) (by omega) hc hc' row col
    exact on
  · exact fun on => ⟨r, hr, c, hc, rfl, rfl, on⟩

/-- A drawing collides exactly where it turns a pixel off (R191). -/
theorem collide_drawSprite_eq_true (hn : n ≤ 32) (d : Display) : (drawSprite sprite x0 y0 n d).collide = true ↔
    ∃ (row : Fin 32) (col : Fin 64),
      pixel d row col = true ∧ pixel (drawSprite sprite x0 y0 n d).disp row col = false := by
  simp only [collide_drawSprite sprite x0 y0 hn, pixel_drawSprite sprite x0 y0 hn, List.any_eq_true, List.mem_range,
    Bool.and_eq_true]
  constructor
  · rintro ⟨r, hr, c, hc, bit, on⟩
    exact ⟨_, _, on, by rw [on, spriteBit_wrap sprite x0 y0 hn hr hc, bit, Bool.xor_self]⟩
  · rintro ⟨row, col, on, off⟩
    have met : spriteBit sprite x0 y0 n row col = true := by simpa [on] using off
    obtain ⟨r, hr, c, hc, rfl, rfl, bit⟩ := (spriteBit_eq_true sprite x0 y0).mp met
    exact ⟨r, hr, c, hc, bit, on⟩

end sprite

theorem flagByte_eq_one {b : Bool} : flagByte b = 1 ↔ b = true := by
  cases b <;> decide

/-- A flag byte is the byte 1 or the byte 0. -/
theorem flagByte_one_or_zero (b : Bool) : flagByte b = 1 ∨ flagByte b = 0 := by
  cases b <;> decide

section drw
variable (x y n : Nibble) (s : State)

/-- What DRW Vx,Vy,n draws: the n bytes at I, with the corner at (Vx, Vy) (R191). -/
def drwDrawing : Drawing :=
  drawSprite (fun r => s.byteAt (s.I.toNat + r)) (s.reg x) (s.reg y) n.toNat s.disp

/-- DRW is the bounds check over its bytes, then the new display and the collision in VF (R191). -/
theorem exec_drw : exec (.drw x y n) s = s.checkIndex n.toNat
    (({ s with disp := (drwDrawing x y n s).disp }.setReg 15#4 (flagByte (drwDrawing x y n s).collide)).finish .seq) :=
  rfl

/-- A sprite has at most 15 rows, so that none of them wraps onto another. -/
theorem toNat_nibble_le (n : Nibble) : n.toNat ≤ 32 := by
  have := n.isLt
  omega

/-- A sprite with a byte above 0xFFF raises MemoryOutOfBounds at the lowest such address (R191, D6). -/
theorem exec_drw_beyond (rows : n ≠ 0) (h : s.I.toNat + n.toNat - 1 > 0xFFF) : exec (.drw x y n) s =
    .fault (.memoryOutOfBounds s.pc (if s.I.toNat > 0xFFF then s.I.toNat else 0x1000)) := by
  have nonzero : n.toNat ≠ 0 := fun zero => rows (BitVec.eq_of_toNat_eq zero)
  obtain ⟨m, last⟩ := Nat.exists_eq_succ_of_ne_zero nonzero
  rw [exec_drw, last]
  exact checkIndex_beyond (by omega) _

/-- A sprite within memory is drawn, and its collision written to VF (R191). -/
theorem exec_drw_within (h : n = 0 ∨ s.I.toNat + n.toNat - 1 ≤ 0xFFF) :
    ∃ t : State, exec (.drw x y n) s = .next t ∧ t.disp = (drwDrawing x y n s).disp ∧
      t.reg 15#4 = flagByte (drwDrawing x y n s).collide ∧ (∀ j, j ≠ 15#4 → t.reg j = s.reg j) ∧ t.pc = s.pc + 2 ∧
      FrameExcept [.V, .disp, .pc] s t := by
  have fits : n.toNat = 0 ∨ s.I.toNat + n.toNat ≤ 4096 :=
    h.imp (fun empty => congrArg BitVec.toNat empty) (fun last => by omega)
  rw [exec_drw, checkIndex_pass fits]
  refine ⟨_, rfl, rfl, ?_, fun j other => ?_, rfl, ?_⟩
  · rw [withPc_reg, setReg_reg, if_pos rfl]
  · rw [withPc_reg, setReg_reg, if_neg other]
    rfl
  · have shown := frameExcept_withDisp (frameExcept_refl [.V, .disp, .pc] s) (by simp) (drwDrawing x y n s).disp
    exact frameExcept_withPc (frameExcept_setReg shown (by simp) _ _) (by simp) _

/-- DRW inverts exactly the pixels that a 1 bit of its sprite meets (R191). -/
theorem pixel_drwDrawing (row : Fin 32) (col : Fin 64) : pixel (drwDrawing x y n s).disp row col =
    (pixel s.disp row col ^^
      spriteBit (fun r => s.byteAt (s.I.toNat + r)) (s.reg x) (s.reg y) n.toNat row col) :=
  pixel_drawSprite _ _ _ (toNat_nibble_le n) _ _ _

/-- DRW collides exactly where it turns a pixel off (R191). -/
theorem collide_drwDrawing_eq_true : (drwDrawing x y n s).collide = true ↔ ∃ (row : Fin 32) (col : Fin 64),
    pixel s.disp row col = true ∧ pixel (drwDrawing x y n s).disp row col = false :=
  collide_drawSprite_eq_true _ _ _ (toNat_nibble_le n) _

end drw

/-- Settles O33: DRW is split by its bounds check; a pixel is split by whether a sprite bit meets it, and then by which. -/
theorem drawXorsTheSprite : Obligations.DrawXorsTheSprite := by
  refine ⟨fun strict x y n => ?_, fun x y n s => ⟨exec_drw_beyond x y n s, fun fits => ?_⟩⟩
  · exact decodeWord_of_decodes strict (.drw x y n) (by simp)
  · obtain ⟨t, runs, shown, flag, rest⟩ := exec_drw_within x y n s fits
    refine ⟨t, runs, fun r c hr hc row col atRow atCol => ?_, fun row col unmet => ?_, ?_, ?_, rest⟩
    · obtain rfl : row = wrapRow ((s.reg y).toNat + r) := Fin.ext atRow
      obtain rfl : col = wrapCol ((s.reg x).toNat + c) := Fin.ext atCol
      rw [shown, pixel_drwDrawing, spriteBit_wrap _ _ _ (toNat_nibble_le n) hr hc]
    · have clear : spriteBit (fun r => s.byteAt (s.I.toNat + r)) (s.reg x) (s.reg y) n.toNat row col = false := by
        rw [Bool.eq_false_iff, ne_eq, spriteBit_eq_true]
        rintro ⟨r, hr, c, hc, atRow, atCol, -⟩
        exact unmet r c hr hc ⟨congrArg Fin.val atRow, congrArg Fin.val atCol⟩
      rw [shown, pixel_drwDrawing, clear, Bool.xor_false]
    · exact flag ▸ flagByte_one_or_zero _
    · rw [flag, flagByte_eq_one, collide_drwDrawing_eq_true, shown]

end Sys2Proof.Machine
end

section
/-! The keypad (R200 to R204): the skips on a key, the wait that LD Vx,K begins, and the step that re-checks it. -/

namespace Sys2Proof.Machine

section frame
variable {cs : List Component} {s u : State}

/-- Where a frame leaves the pending-instruction marker open, the marker may be set last. -/
theorem frameExcept_withWait (h : FrameExcept cs s u) (hc : .wait ∈ cs) (w : Option Waiting) :
    FrameExcept cs s { u with wait := w } := by
  intro c out
  cases c with
  | wait => exact absurd hc out
  | V | I | pc | stack | DT | ST | mem | keys | disp | draws | params => exact h _ out

/-- An operand that draws at most once changes at most the draw counter. -/
theorem frameExcept_of_drawn (hc : .draws ∈ cs) (h : u = s ∨ u = s.drawn) : FrameExcept cs s u := by
  obtain rfl | rfl := h
  · exact frameExcept_refl cs u
  · exact frameExcept_drawn (frameExcept_refl cs s) hc

end frame

/-! ## The skips on a key -/

/-- The key of a byte's low nibble, by its number. -/
theorem key_lowNibble (s : State) (v : Byte) {k : Fin 16} (h : k.val = v.toNat % 16) :
    s.key (v.setWidth 4) = s.keys[k.val] := by
  simp only [State.key, toNat_lowNibble, h]

/-- A skip made after key `k` was read: the pc and, where the read drew, the draw counter change, and nothing else. -/
theorem finish_skip_keyAt (s : State) (k : Byte) (taken : Bool) :
    ∃ t : State, (keyAt s k).2.finish (.skip taken) = .next t ∧ t.draws = (keyAt s k).2.draws ∧
      t.pc = s.pc + (if taken then 4 else 2) ∧ FrameExcept [.pc, .draws] s t := by
  refine ⟨_, rfl, rfl, ?_, frameExcept_withPc (frameExcept_of_drawn (by simp) (keyAt_snd s k)) (by simp) _⟩
  rw [keyAt_pc, advance]

/-- Settles O35: one answer of `keyAt` decides both skips; where it names a key, it is that key's state and nothing is drawn. -/
theorem keySkips : Obligations.KeySkips := by
  refine ⟨fun strict x => ⟨?_, ?_⟩, fun x s => ?_⟩
  · exact decodeWord_of_decodes strict (.skp x) (by simp)
  · exact decodeWord_of_decodes strict (.sknp x) (by simp)
  · obtain ⟨t, skp, tDraws, tPc, tFrame⟩ := finish_skip_keyAt s (s.reg x) (keyAt s (s.reg x)).1
    obtain ⟨u, sknp, uDraws, uPc, uFrame⟩ := finish_skip_keyAt s (s.reg x) (!(keyAt s (s.reg x)).1)
    refine ⟨(keyAt s (s.reg x)).1, t, u, fun named => ?_, skp, tPc, tFrame, sknp, ?_, uFrame⟩
    · rw [tDraws, uDraws, keyAt_key named]
      exact ⟨fun k low => key_lowNibble s _ low, rfl, rfl⟩
    · rw [uPc]
      cases (keyAt s (s.reg x)).1 <;> rfl

/-! ## The keypress wait -/

/-- Settles O36: LD Vx,K writes the marker, from the keypad as it is, and requests HOLD. -/
theorem keyWaitBegins : Obligations.KeyWaitBegins := by
  refine ⟨fun strict x => decodeWord_of_decodes strict (.ldVxK x) (by simp), fun x s => ?_⟩
  exact ⟨_, rfl, rfl, rfl, frameExcept_withWait (frameExcept_refl _ s) (by simp) _⟩

/-- With a wait pending, a step is a wait step, which always answers (R101, R203). -/
theorem step_of_wait {s : State} {w : Waiting} (h : s.wait = some w) : step s = .next (waitStep w s) := by
  simp only [step, h]

/-- A key's number fits in a byte. -/
theorem toNat_keyByte (k : Fin 16) : (BitVec.ofNat 8 k.val).toNat = k.val := by
  rw [BitVec.toNat_ofNat, Nat.mod_eq_of_lt (by omega)]

/-- KEY_SELECT = lowest chooses the first fresh key and draws nothing (R203). -/
theorem selectKey_lowest {s : State} (h : s.params.keySelect = .lowest) (k : Fin 16) (ks : List (Fin 16)) :
    selectKey s k ks = (k, s) := by
  simp only [selectKey, h]

/-- Choosing among the fresh keys changes nothing but, where it draws, `draws`. -/
theorem selectKey_snd (s : State) (k : Fin 16) (ks : List (Fin 16)) :
    (selectKey s k ks).2 = s ∨ (selectKey s k ks).2 = s.drawn :=
  (selectKey_spec s k ks).2.imp And.left And.left

/-- Choosing among the fresh keys leaves the registers alone. -/
@[simp] theorem selectKey_reg (s : State) (k : Fin 16) (ks : List (Fin 16)) : (selectKey s k ks).2.reg = s.reg := by
  obtain kept | drawn := selectKey_snd s k ks
  · rw [kept]
  · rw [drawn, drawn_reg]

section waitStep
variable {s : State} {w : Waiting} {k : Fin 16} {ks : List (Fin 16)}

/-- Without a fresh key a wait step changes the marker only (R203). -/
theorem waitStep_idle_frame (h : freshKeys s.keys w.snap = []) : FrameExcept [.wait] s (waitStep w s) := by
  rw [waitStep_idle h]
  exact frameExcept_withWait (frameExcept_refl _ s) (by simp) _

/-- With fresh keys a wait step writes the number of the chosen one to the awaited register, and to no other (R203). -/
theorem waitStep_done_reg (h : freshKeys s.keys w.snap = k :: ks) (j : Nibble) : (waitStep w s).reg j =
    if j = w.x then BitVec.ofNat 8 (selectKey s k ks).1.val else s.reg j := by
  rw [waitStep_done h, ← selectKey_reg s k ks]
  exact setReg_reg _ _ _ j

/-- With fresh keys a wait step changes the registers, the pc, the marker and the draw counter only (R203). -/
theorem waitStep_done_frame (h : freshKeys s.keys w.snap = k :: ks) :
    FrameExcept [.V, .pc, .wait, .draws] s (waitStep w s) := by
  rw [waitStep_done h]
  have chosen : FrameExcept [.V, .pc, .wait, .draws] s (selectKey s k ks).2 :=
    frameExcept_of_drawn (by simp) (selectKey_snd s k ks)
  exact frameExcept_withPc (frameExcept_withWait (frameExcept_setReg chosen (by simp) _ _) (by simp) none) (by simp) _

/-- The key a wait step reports is fresh (R203). -/
theorem selectKey_fresh (h : freshKeys s.keys w.snap = k :: ks) :
    s.keys[(selectKey s k ks).1.val] = true ∧ w.snap[(selectKey s k ks).1.val] = false :=
  mem_freshKeys.mp (h ▸ (selectKey_spec s k ks).1)

/-- Under KEY_SELECT = lowest a wait step that ends the wait draws nothing, and no fresh key is below the reported one (R203). -/
theorem waitStep_done_lowest (h : freshKeys s.keys w.snap = k :: ks) (lowest : s.params.keySelect = .lowest) :
    (waitStep w s).draws = s.draws ∧ ∀ j : Fin 16, s.keys[j.val] = true → w.snap[j.val] = false →
      (selectKey s k ks).1.val ≤ j.val := by
  rw [waitStep_done h, selectKey_lowest lowest]
  exact ⟨rfl, fun j down up => freshKeys_head_le h (mem_freshKeys.mpr ⟨down, up⟩)⟩

end waitStep

/-- Settles O11: a wait step is split by whether the list of fresh keys is empty, which decides which clause applies. -/
theorem waitStepRechecksKeypad : Obligations.WaitStepRechecksKeypad := by
  intro s x snap waiting
  refine ⟨_, step_of_wait waiting, ?_⟩
  cases fresh : freshKeys s.keys snap with
  | nil =>
    refine ⟨fun _ => ⟨?_, waitStep_idle_frame fresh⟩, fun ⟨k, isFresh⟩ => ?_⟩
    · rw [waitStep_idle fresh]
    · have listed : k ∈ freshKeys s.keys snap := mem_freshKeys.mpr isFresh
      simp [fresh] at listed
  | cons k ks =>
    have isFresh : s.keys[k.val] = true ∧ snap[k.val] = false := mem_freshKeys.mp (fresh ▸ List.mem_cons_self)
    refine ⟨fun noneFresh => absurd isFresh (noneFresh k), fun _ => ?_⟩
    obtain ⟨down, up⟩ := selectKey_fresh (w := ⟨x, snap⟩) fresh
    refine ⟨?_, ?_, ⟨(selectKey s k ks).1, down, up, ?_, waitStep_done_lowest fresh⟩, fun j other => ?_,
      waitStep_done_frame fresh⟩
    · rw [waitStep_done fresh]
    · rw [waitStep_done fresh]
    · rw [waitStep_done_reg fresh, if_pos rfl, toNat_keyByte]
    · rw [waitStep_done_reg fresh, if_neg other]

end Sys2Proof.Machine
end

section
/-! The timers (R210 to R213): the instructions that write one of them, and their count after any number of Ticks. -/

namespace Sys2Proof.Machine

section frame
variable {cs : List Component} {s u : State}

/-- Where a frame leaves DT open, DT may be set last. -/
theorem frameExcept_withDT (h : FrameExcept cs s u) (hc : .DT ∈ cs) (v : Byte) :
    FrameExcept cs s { u with DT := v } := by
  intro c out
  cases c with
  | DT => exact absurd hc out
  | V | I | pc | stack | ST | mem | keys | disp | wait | draws | params => exact h _ out

/-- Where a frame leaves ST open, ST may be set last. -/
theorem frameExcept_withST (h : FrameExcept cs s u) (hc : .ST ∈ cs) (v : Byte) :
    FrameExcept cs s { u with ST := v } := by
  intro c out
  cases c with
  | ST => exact absurd hc out
  | V | I | pc | stack | DT | mem | keys | disp | wait | draws | params => exact h _ out

end frame

/-- Settles O38: the read of DT writes one register; each write of a timer sets that timer, then the pc. -/
theorem timerInstructions : Obligations.TimerInstructions := by
  refine ⟨fun strict x => ⟨?_, ?_, ?_⟩, fun x s => ⟨finish_setReg s x s.DT, ?_, ?_⟩⟩
  · exact decodeWord_of_decodes strict (.ldVxDT x) (by simp)
  · exact decodeWord_of_decodes strict (.ldDTVx x) (by simp)
  · exact decodeWord_of_decodes strict (.ldSTVx x) (by simp)
  · exact ⟨_, rfl, rfl, rfl, frameExcept_withPc (frameExcept_withDT (frameExcept_refl _ s) (by simp) _) (by simp) _⟩
  · exact ⟨_, rfl, rfl, rfl, frameExcept_withPc (frameExcept_withST (frameExcept_refl _ s) (by simp) _) (by simp) _⟩

/-- A timer that each Tick counts down has lost n after n Ticks, and stops at zero (R213). -/
theorem toNat_timer_iterate_tick {timer : State → Byte} (counts : ∀ s : State, timer (tick s) = countDown (timer s))
    (n : Nat) (s : State) : (timer (tick^[n] s)).toNat = (timer s).toNat - n := by
  induction n generalizing s with
  | zero => rfl
  | succ n ih => rw [Function.iterate_succ_apply, ih, counts, toNat_countDown, Nat.sub_sub, Nat.add_comm]

/-- Settles O39: both timers count down at each Tick, which is what the host's operation makes of the machine. -/
theorem ticksCountDownToZero : Obligations.TicksCountDownToZero := by
  refine ⟨tick_frame, fun n s => ⟨?_, ?_⟩, fun g => ⟨{ g with machine := tick g.machine }, rfl, rfl, rfl⟩⟩
  · exact toNat_timer_iterate_tick (timer := State.DT) (fun _ => rfl) n s
  · exact toNat_timer_iterate_tick (timer := State.ST) (fun _ => rfl) n s

end Sys2Proof.Machine
end

section
/-! Errors (R221 to R228): every execution completes or raises its own error, which a step reports only after the fetch's. -/

namespace Sys2Proof.Machine

/-- An execution completes where no error is due, and raises exactly the error that is. -/
def Answers (r : Result) : Option Fault → Prop
  | none => ∃ t : State, r = .next t
  | some f => r = .fault f

/-- A transfer of n bytes at I raises its access error, and completes where it has none (R53, R224). -/
theorem checkIndex_answers (s u : State) (n : Nat) (r : NextPc) :
    Answers (s.checkIndex n (u.finish r)) (accessError s n) := by
  by_cases fits : n = 0 ∨ s.I.toNat + n ≤ 4096
  · have noError : accessError s n = none := if_neg (by omega)
    rw [noError, checkIndex_pass fits]
    exact ⟨_, rfl⟩
  · have error : accessError s n = some (.memoryOutOfBounds s.pc (max s.I.toNat 4096)) := if_pos (by omega)
    rw [error]
    exact checkIndex_fail fits _

/-- RET raises StackUnderflow at depth 0, and completes above (R121). -/
theorem exec_ret_answers (s : State) : Answers (exec .ret s) (ownError s .ret) := by
  by_cases empty : s.sp.val = 0
  · rw [ownError, if_pos empty]
    exact exec_ret_of_sp_zero empty
  · obtain ⟨j, depth⟩ := Nat.exists_eq_succ_of_ne_zero empty
    rw [ownError, if_neg empty]
    exact ⟨_, exec_ret_of_sp_succ (by omega) depth⟩

/-- CALL raises StackOverflow at depth 16, and completes below (R123). -/
theorem exec_call_answers (nnn : Addr12) (s : State) : Answers (exec (.call nnn) s) (ownError s (.call nnn)) := by
  by_cases full : s.sp.val = 16
  · rw [ownError, if_pos full]
    exact exec_call_of_full nnn (by omega)
  · rw [ownError, if_neg full]
    exact ⟨_, exec_call_of_room nnn (by omega)⟩

/-- Every instruction raises its own error, and completes where it has none (R225): only the stack, the transfers through I and
UNKNOWN have one. -/
theorem exec_answers (i : Instr) (s : State) : Answers (exec i s) (ownError s i) := by
  cases i with
  | unknown w => exact exec_unknown w s
  | ret => exact exec_ret_answers s
  | call nnn => exact exec_call_answers nnn s
  | drw | ldB | stm | ldm => exact checkIndex_answers s _ _ _
  | cls | jp | seImm | sneImm | seReg | sneReg | jpV0 => exact ⟨_, rfl⟩
  | ldImm | addImm | ldReg | orReg | andReg | xorReg | addReg | subReg | shr | subnReg | shl | rnd => exact ⟨_, rfl⟩
  | ldI | addI | ldF | skp | sknp | ldVxDT | ldVxK | ldDTVx | ldSTVx => exact ⟨_, rfl⟩

/-- Settles O42: in the order of `step`: a pending wait, the fetch, then what the decoded instruction answers. -/
theorem errorPriority : Obligations.ErrorPriority := by
  intro s
  refine ⟨fun pending => ?_, fun running beyond => ?_, fun w running fetched => ?_⟩
  · obtain ⟨w, waiting⟩ := Option.ne_none_iff_exists'.mp pending
    exact ⟨_, step_of_wait waiting⟩
  · exact ⟨_, step_of_fetch16_error running (fetch16_error beyond)⟩
  · have answers := exec_answers (decodeWord s.params.strictDecode w) s
    rw [← step_of_fetch16_ok running fetched] at answers
    revert answers
    cases ownError s (decodeWord s.params.strictDecode w) with
    | none => exact id
    | some f => exact id

/-- Once an error has been recorded, the record is not empty (R229). -/
theorem recordFault_faulted_ne_none (g : Session) (f : Fault) : (g.recordFault f).faulted ≠ none := by
  simp [Session.recordFault]

/-- Settles O43: Step and Cycle both leave the session with the error recorded, which keeps the machine. -/
theorem errorsCommitNothing : Obligations.ErrorsCommitNothing := by
  intro g f stops
  refine ⟨?_, fun due => ?_⟩
  · exact ⟨_, apply_step_of_fault stops, rfl, recordFault_faulted_ne_none _ f⟩
  · exact ⟨_, apply_cycle_of_fault stops due, rfl, recordFault_faulted_ne_none _ f⟩

end Sys2Proof.Machine
end

section
/-! The host's SetKey (R242) and its reads (R243, R244). -/

namespace Sys2Proof.Machine

/-- Where a frame leaves the keypad open, the keypad may be set last. -/
theorem frameExcept_withKeys {cs : List Component} {s u : State} (h : FrameExcept cs s u) (hc : .keys ∈ cs)
    (keys : Keypad) : FrameExcept cs s { u with keys := keys } := by
  intro c out
  cases c with
  | keys => exact absurd hc out
  | V | I | pc | stack | DT | ST | mem | disp | wait | draws | params => exact h _ out

section setKey
variable (g : Session) {k : Nat} (pressed : Bool)

/-- SetKey of a key in 0..15 sets that key of the machine's keypad (R242). -/
theorem apply_setKey (h : k < 16) : g.apply (.setKey k pressed) =
    .ok ({ g with machine := { g.machine with keys := g.machine.keys.set k pressed h } }, .ok) := by
  simp only [Session.apply, setKey, dif_pos h]

/-- SetKey of any other key is refused (R242, R246). -/
theorem apply_setKey_beyond (h : ¬ k < 16) : g.apply (.setKey k pressed) = .error (.keyOutOfRange k) := by
  simp only [Session.apply, setKey, dif_neg h]

end setKey

/-- Settles O52: by whether the key exists; the keypad, and in it that one key, is all that is set. -/
theorem setKeyWritesOneKey : Obligations.SetKeyWritesOneKey := by
  intro g k pressed
  refine ⟨fun beyond => apply_setKey_beyond g pressed (by omega), fun inRange => ?_⟩
  refine ⟨_, apply_setKey g pressed inRange, fun j => ?_, frameExcept_withKeys (frameExcept_refl _ _) (by simp) _⟩
  have setAt : (g.machine.keys.set k pressed inRange)[j.toNat] = if k = j.toNat then pressed else g.machine.key j :=
    Vector.getElem_set inRange j.isLt
  exact setAt.trans (if_congr eq_comm rfl rfl)

/-- The sound is active exactly where the sound timer is not zero (R215). -/
theorem soundActive_eq_true {s : State} : s.soundActive = true ↔ s.ST.toNat ≠ 0 := by
  rw [State.soundActive, bne_iff_ne]
  exact not_congr BitVec.toNat_inj.symm

/-- Settles O53: both reads answer from the machine and give back the session they were asked in. -/
theorem readsChangeNothing : Obligations.ReadsChangeNothing :=
  fun _ => ⟨rfl, _, rfl, soundActive_eq_true⟩

end Sys2Proof.Machine
end

section
/-! Decoding against encoding, for whole words (R76, R78, R81): both are read off the list that `Decodes` is. -/

namespace Sys2Proof

/-! ## The words of an encoded instruction -/

/-- The word written for an instruction of the table is among those that select its kind (R81). -/
theorem decodes_encode {i : Instr} (known : ∀ w, i ≠ .unknown w) : Decodes (encode i) i := by
  cases i with
  | unknown w => exact absurd rfl (known w)
  | cls => exact .cls 0
  | ret => exact .ret 0
  | jp nnn => exact .jp nnn
  | call nnn => exact .call nnn
  | seImm x kk => exact .seImm x kk
  | sneImm x kk => exact .sneImm x kk
  | seReg x y => exact .seReg x y 0
  | ldImm x kk => exact .ldImm x kk
  | addImm x kk => exact .addImm x kk
  | ldReg x y => exact .ldReg x y
  | orReg x y => exact .orReg x y
  | andReg x y => exact .andReg x y
  | xorReg x y => exact .xorReg x y
  | addReg x y => exact .addReg x y
  | subReg x y => exact .subReg x y
  | shr x y => exact .shr x y
  | subnReg x y => exact .subnReg x y
  | shl x y => exact .shl x y
  | sneReg x y => exact .sneReg x y 0
  | ldI nnn => exact .ldI nnn
  | jpV0 nnn => exact .jpV0 nnn
  | rnd x kk => exact .rnd x kk
  | drw x y n => exact .drw x y n
  | skp x => exact .skp x
  | sknp x => exact .sknp x
  | ldVxDT x => exact .ldVxDT x
  | ldVxK x => exact .ldVxK x
  | ldDTVx x => exact .ldDTVx x
  | ldSTVx x => exact .ldSTVx x
  | addI x => exact .addI x
  | ldF x => exact .ldF x
  | ldB x => exact .ldB x
  | stm x => exact .stm x
  | ldm x => exact .ldm x

/-- The word written for an instruction of the table sets no don't-care bit, but for the y of a shift (R77, R91, U15). -/
theorem hasDontCareBit_encode {i : Instr} (known : ∀ w, i ≠ .unknown w) (h : i.wf true = true) :
    hasDontCareBit (encode i) = false := by
  cases i with
  | unknown w => exact absurd rfl (known w)
  | cls | ret => decide
  | seReg | sneReg => simp [hasDontCareBit_views, encode]
  | ldReg | orReg | andReg | xorReg | addReg | subReg | subnReg => simp [hasDontCareBit_views, encode]
  | shr x y | shl x y =>
    have noY : y = 0#4 := by simpa [Instr.wf] using h
    simp [hasDontCareBit_views, encode, noY]
  | _ => exact hasDontCareBit_of_group (by simp [encode])

/-- An UNKNOWN that is well formed is what its word decodes to (R78, U15). -/
theorem decodeWord_of_wf_unknown {strict : Bool} {w : Word} (h : (Instr.unknown w).wf strict = true) :
    decodeWord strict w = .unknown w := by
  simp only [Instr.wf, Bool.or_eq_true] at h
  obtain inSpace | rejected := h
  · exact Machine.decodeWord_of_isUnknownWord strict inSpace
  · rw [decodeWord, if_pos rejected]

/-- Settles O1: an UNKNOWN by its word, every other kind because its encoding selects it and sets no don't-care bit. -/
theorem decodeInvertsEncode : Obligations.DecodeInvertsEncode := by
  intro strict i wf
  by_cases known : ∀ w, i ≠ .unknown w
  · cases strict with
    | false => exact decodeWord_false_of_decodes (decodes_encode known)
    | true =>
      rw [decodeWord_of_noDontCareBit true (hasDontCareBit_encode known wf), classify_of_decodes (decodes_encode known)]
  · push Not at known
    obtain ⟨w, rfl⟩ := known
    exact decodeWord_of_wf_unknown wf

/-! ## What a decoded word encodes to -/

/-- Decoding gives UNKNOWN for a word rejected under STRICT_DECODE, and classifies every other word. -/
theorem decodeWord_cases (strict : Bool) (w : Word) :
    (strict && hasDontCareBit w) = true ∧ decodeWord strict w = .unknown w ∨
      (strict && hasDontCareBit w) = false ∧ decodeWord strict w = classify w := by
  cases rejected : strict && hasDontCareBit w <;> simp [decodeWord, rejected]

/-- What a word selects is well formed, where the word is not rejected under STRICT_DECODE (R78, U15). -/
theorem wf_of_decodes {strict : Bool} {w : Word} {i : Instr} (h : Decodes w i)
    (accepted : (strict && hasDontCareBit w) = false) : i.wf strict = true := by
  cases h with
  | unknown _ inSpace => simp [Instr.wf, inSpace]
  | shr | shl =>
    cases strict with
    | false => rfl
    | true => simpa [Instr.wf, hasDontCareBit_views] using accepted
  | _ => rfl

/-- What a word selects is encoded back to the word, where no don't-care bit is set (R81, R91). -/
theorem encode_of_decodes {w : Word} {i : Instr} (h : Decodes w i) (clear : hasDontCareBit w = false) :
    encode i = w := by
  cases h with
  | cls x | ret x =>
    have noX : x = 0#4 := by simpa [hasDontCareBit_views] using clear
    rw [noX]
    rfl
  | seReg x y n | sneReg x y n =>
    have noN : n = 0#4 := by simpa [hasDontCareBit_views] using clear
    rw [noN]
    rfl
  | _ => rfl

/-- Settles O2: by whether the word is rejected under STRICT_DECODE, and else by what it selects. -/
theorem encodeInvertsDecode : Obligations.EncodeInvertsDecode := by
  refine ⟨fun strict w => ?_, fun w => ?_, fun w clear => ?_⟩
  · obtain ⟨rejected, unknown⟩ | ⟨accepted, classified⟩ := decodeWord_cases strict w
    · simp [unknown, Instr.wf, rejected]
    · exact classified ▸ wf_of_decodes (classify_decodes w) accepted
  · obtain ⟨-, unknown⟩ | ⟨accepted, classified⟩ := decodeWord_cases true w
    · rw [unknown, encode]
    · exact classified ▸ encode_of_decodes (classify_decodes w) accepted
  · exact decodeWord_false w ▸ encode_of_decodes (classify_decodes w) clear

/-! ## The UNKNOWN space -/

/-- The words that classify as UNKNOWN are those of the UNKNOWN space, each as itself (R78). -/
theorem classify_eq_unknown {v w : Word} : classify w = .unknown v ↔ isUnknownWord w = true ∧ v = w := by
  constructor
  · intro unknown
    have listed := classify_decodes w
    rw [unknown] at listed
    cases listed with
    | unknown _ inSpace => exact ⟨inSpace, rfl⟩
  · rintro ⟨inSpace, rfl⟩
    exact classify_of_isUnknownWord inSpace

/-- Settles O3: the words that classify as UNKNOWN are those of `isUnknownWord`, which is the table. -/
theorem unknownSpaceIsExact : Obligations.UnknownSpaceIsExact := by
  refine ⟨fun w => ?_, fun v w unknown => ?_⟩
  · rw [decodeWord_false, classify_eq_unknown, isUnknownWord_views]
    simp [or_assoc]
  · rw [decodeWord_false, classify_eq_unknown] at unknown
    exact unknown.2

end Sys2Proof
end

section
/-! The classifier examines the group, and in groups 0, E, F the low byte and in group 8 the low nibble (R76, R77): hence what
the rows of R81 select. -/

namespace Sys2Proof

open Laws.EncodeMatch (keep_nnn keep_xkk keep_xyn keep_xyn_low keep_byte)

/-! ## Selection -/

/-- Two words that agree in every bit the classifier examines (R77). -/
structure SameSelection (v w : Word) : Prop where
  sameGroup : group v = group w
  lowByte : group w ∈ [0x0#4, 0xE#4, 0xF#4] → imm8 v = imm8 w
  lowNibble : group w = 0x8#4 → nibble4 v = nibble4 w

/-- Two classifications that branch on the same condition give the same kind where each pair of branches does. -/
theorem mnemonic_ite {p : Prop} [Decidable p] {a b a' b' : Instr} (yes : p → mnemonic a = mnemonic a')
    (no : ¬ p → mnemonic b = mnemonic b') : mnemonic (if p then a else b) = mnemonic (if p then a' else b') := by
  split
  · exact yes ‹p›
  · exact no ‹¬ p›

section selection
variable {v w : Word}

theorem mnemonic_classifyGroup0 (h : imm8 v = imm8 w) :
    mnemonic (classifyGroup0 v) = mnemonic (classifyGroup0 w) := by
  rw [classifyGroup0, classifyGroup0, h]
  iterate 2 refine mnemonic_ite (fun _ => rfl) fun _ => ?_
  rfl

theorem mnemonic_classifyGroup8 (h : nibble4 v = nibble4 w) :
    mnemonic (classifyGroup8 v) = mnemonic (classifyGroup8 w) := by
  rw [classifyGroup8, classifyGroup8, h]
  iterate 9 refine mnemonic_ite (fun _ => rfl) fun _ => ?_
  rfl

theorem mnemonic_classifyGroupE (h : imm8 v = imm8 w) :
    mnemonic (classifyGroupE v) = mnemonic (classifyGroupE w) := by
  rw [classifyGroupE, classifyGroupE, h]
  iterate 2 refine mnemonic_ite (fun _ => rfl) fun _ => ?_
  rfl

theorem mnemonic_classifyGroupF (h : imm8 v = imm8 w) :
    mnemonic (classifyGroupF v) = mnemonic (classifyGroupF w) := by
  rw [classifyGroupF, classifyGroupF, h]
  iterate 9 refine mnemonic_ite (fun _ => rfl) fun _ => ?_
  rfl

/-- The bits that the classifier does not examine do not change the kind (R76, R77). -/
theorem SameSelection.mnemonic_classify (same : SameSelection v w) : mnemonic (classify v) = mnemonic (classify w) := by
  obtain ⟨sameGroup, lowByte, lowNibble⟩ := same
  have groups := Nibble_cases (group w)
  rw [classify, classify, sameGroup]
  refine mnemonic_ite (fun is0 => mnemonic_classifyGroup0 (lowByte (by simp [is0]))) fun _ => ?_
  iterate 7 refine mnemonic_ite (fun _ => rfl) fun _ => ?_
  refine mnemonic_ite (fun is8 => mnemonic_classifyGroup8 (lowNibble is8)) fun _ => ?_
  iterate 5 refine mnemonic_ite (fun _ => rfl) fun _ => ?_
  refine mnemonic_ite (fun isE => mnemonic_classifyGroupE (lowByte (by simp [isE]))) fun _ => ?_
  exact mnemonic_classifyGroupF (lowByte (by simp_all))

end selection

/-- Settles O5: the words compared in groups 0, 8, E and F agree in all the bits examined; `Decodes` lists groups 5 and 9. -/
theorem unexaminedBitsDoNotSelect : Obligations.UnexaminedBitsDoNotSelect := by
  simp only [Obligations.UnexaminedBitsDoNotSelect, decodeWord_false]
  refine ⟨fun x x' lo => ?_, fun x y n => ?_, fun x y n => ?_, fun g x x' lo hg => ⟨?_, regX_wordXKK g x lo⟩,
    fun x x' y y' n => ?_⟩
  · exact SameSelection.mnemonic_classify ⟨by simp, by simp, by simp⟩
  · exact classify_of_decodes (.seReg x y n)
  · exact classify_of_decodes (.sneReg x y n)
  · have not8 : g ≠ 0x8#4 := by rcases hg with rfl | rfl <;> decide
    exact SameSelection.mnemonic_classify ⟨by simp, by simp, by simp [not8]⟩
  · exact SameSelection.mnemonic_classify ⟨by simp, by simp, by simp⟩

/-! ## The rows of R81 -/

/-- Every mask covers the bits that the classifier examines in its row's group. -/
theorem mask_covers_selection : ∀ row ∈ opcodeTable, group row.2.2 = 0xF#4 ∧
    (group row.2.1 ∈ [0x0#4, 0xE#4, 0xF#4] → imm8 row.2.2 = 0xFF#8) ∧
    (group row.2.1 = 0x8#4 → nibble4 row.2.2 = 0xF#4) := by
  decide

/-- A row's match is itself a word of the row's kind. -/
theorem mnemonic_classify_match : ∀ row ∈ opcodeTable, mnemonic (classify row.2.1) = row.1 := by
  decide

/-- No two rows have the same name: looking a row's name up gives that row. -/
theorem lookup_of_mem : ∀ row ∈ opcodeTable, opcodeTable.lookup row.1 = some row.2 := by
  decide

theorem name_ne_unknown : ∀ row ∈ opcodeTable, row.1 ≠ "UNKNOWN" := by
  decide

theorem mem_of_lookup {name : String} {row : Word × Word} (h : opcodeTable.lookup name = some row) :
    (name, row) ∈ opcodeTable := by
  obtain ⟨before, after, split, -⟩ := List.lookup_eq_some_iff.mp h
  simp [split]

/-- A word of a kind other than UNKNOWN matches the row that the kind's name looks up. -/
theorem lookup_of_decodes {w : Word} {i : Instr} (h : Decodes w i) (known : mnemonic i ≠ "UNKNOWN") :
    ∃ row, opcodeTable.lookup (mnemonic i) = some row ∧ w &&& row.2 = row.1 := by
  cases h with
  | jp | call | ldI | jpV0 => exact ⟨_, rfl, keep_nnn _ _⟩
  | seImm | sneImm | ldImm | addImm | rnd => exact ⟨_, rfl, keep_xkk _ _ _⟩
  | seReg | sneReg | drw => exact ⟨_, rfl, keep_xyn _ _ _ _⟩
  | ldReg | orReg | andReg | xorReg | addReg | subReg | shr | subnReg | shl =>
    exact ⟨_, rfl, keep_xyn_low _ _ _ _⟩
  | cls | ret | skp | sknp | ldVxDT | ldVxK | ldDTVx | ldSTVx | addI | ldF | ldB | stm | ldm =>
    exact ⟨_, rfl, keep_byte _ _ _⟩
  | unknown => exact absurd rfl known

/-- Where every mask bit of a view is set, a match fixes the view. -/
theorem view_of_match {v w m : Word} {lo n : Nat} (hit : w &&& m = v)
    (covered : m.extractLsb' lo n = BitVec.allOnes n) : w.extractLsb' lo n = v.extractLsb' lo n := by
  rw [← hit, BitVec.extractLsb'_and, covered, BitVec.and_allOnes]

section rows
variable {w : Word} {row : String × Word × Word}

/-- A word that a row matches agrees with the row's match in all the bits examined. -/
theorem sameSelection_of_match (listed : row ∈ opcodeTable) (h : w &&& row.2.2 = row.2.1) :
    SameSelection w row.2.1 := by
  obtain ⟨groupCovered, byteCovered, nibbleCovered⟩ := mask_covers_selection row listed
  exact ⟨view_of_match h groupCovered, fun byte => view_of_match h (byteCovered byte),
    fun nibble => view_of_match h (nibbleCovered nibble)⟩

/-- A word that a row matches is of the row's kind (R81). -/
theorem mnemonic_of_match (listed : row ∈ opcodeTable) (h : w &&& row.2.2 = row.2.1) :
    mnemonic (classify w) = row.1 :=
  (sameSelection_of_match listed h).mnemonic_classify.trans (mnemonic_classify_match row listed)

/-- A word of a row's kind matches the row (R81). -/
theorem match_of_mnemonic (listed : row ∈ opcodeTable) (h : mnemonic (classify w) = row.1) :
    w &&& row.2.2 = row.2.1 := by
  obtain ⟨found, lookedUp, hit⟩ := lookup_of_decodes (classify_decodes w) (h ▸ name_ne_unknown row listed)
  rw [h, lookup_of_mem row listed, Option.some.injEq] at lookedUp
  exact lookedUp ▸ hit

end rows

/-- Settles O4: a match and the name of a kind say the same of a row, and a name is one row's. -/
theorem opcodeTableSelectsKind : Obligations.OpcodeTableSelectsKind := by
  simp only [Obligations.OpcodeTableSelectsKind, decodeWord_false]
  refine ⟨fun w row listed => ⟨mnemonic_of_match listed, match_of_mnemonic listed⟩, fun w => ⟨fun unknown => ?_, ?_⟩,
    fun w row row' listed listed' hit hit' => ?_⟩
  · intro row listed hit
    exact name_ne_unknown row listed (mnemonic_of_match listed hit ▸ unknown)
  · intro unmatched
    by_contra known
    obtain ⟨row, lookedUp, hit⟩ := lookup_of_decodes (classify_decodes w) known
    exact unmatched _ (mem_of_lookup lookedUp) hit
  · have name : row.1 = row'.1 := (mnemonic_of_match listed hit).symm.trans (mnemonic_of_match listed' hit')
    have rest : some row.2 = some row'.2 := by rw [← lookup_of_mem row listed, ← lookup_of_mem row' listed', name]
    exact Prod.ext name (Option.some.inj rest)

/-- Settles O7: each word is listed under its kind. -/
theorem sampleWordsDecode : Obligations.SampleWordsDecode := by
  refine ⟨?_, ?_, ?_, ?_, ?_, ?_, ?_, ?_, ?_, ?_, ?_, ?_, ?_⟩ <;> apply decodeWord_false_of_decodes
  · exact .cls 0
  · exact .ret 0
  · exact .call 0x210
  · exact .jpV0 0xF01
  · exact .seImm 3 0x42
  · exact .addReg 1 2
  · exact .rnd 3 0x0F
  · exact .stm 2
  · exact .drw 0 1 5
  · exact .sknp 1
  · exact .ldVxK 3
  · exact .ldSTVx 2
  · exact .unknown 0x8008 (by decide)

end Sys2Proof
end

section
/-! Who writes what (R22 to R31, R51): each kind stays within its components and registers. -/

namespace Sys2Proof.Machine

/-- From `s` to `u` only what kind `i` may write has changed. -/
def Within (i : Instr) (s u : State) : Prop :=
  FrameExcept (mayWrite i) s u ∧ ∀ j : Nibble, writesReg i j = false → u.reg j = s.reg j

section within
variable {i : Instr} {s t u : State}

theorem within_refl (i : Instr) (s : State) : Within i s s :=
  ⟨frameExcept_refl _ s, fun _ _ => rfl⟩

/-- A kind that may write no register is within its writes when it is within its components. -/
theorem within_of_frameExcept (frame : FrameExcept (mayWrite i) s u) (noReg : .V ∉ mayWrite i := by simp [mayWrite]) :
    Within i s u :=
  ⟨frame, fun j _ => frame .V noReg j⟩

/-- A kind that moves the pc may do so last, whatever it requests. -/
theorem Within.finish {r : NextPc} (h : Within i s u) (runs : u.finish r = .next t)
    (hc : .pc ∈ mayWrite i := by simp [mayWrite]) : Within i s t := by
  obtain ⟨frame, regs⟩ := h
  rw [finish_eq_next.mp runs]
  exact ⟨frameExcept_withPc frame hc _, regs⟩

theorem Within.setReg (h : Within i s u) {x : Nibble} (v : Byte) (hx : writesReg i x = true := by simp [writesReg])
    (hc : .V ∈ mayWrite i := by simp [mayWrite]) : Within i s (u.setReg x v) := by
  obtain ⟨frame, regs⟩ := h
  refine ⟨frameExcept_setReg frame hc x v, fun j unwritten => ?_⟩
  have other : j ≠ x := by
    rintro rfl
    simp [hx] at unwritten
  rw [setReg_reg, if_neg other, regs j unwritten]

theorem Within.writeFlagged (h : Within i s u) {x : Nibble} (r : Flagged)
    (hx : writesReg i x = true := by simp [writesReg]) (hf : writesReg i 15#4 = true := by simp [writesReg])
    (hc : .V ∈ mayWrite i := by simp [mayWrite]) : Within i s (u.writeFlagged x r) := by
  unfold State.writeFlagged
  split
  · exact (h.setReg _ hf hc).setReg _ hx hc
  · exact (h.setReg _ hx hc).setReg _ hf hc

/-- RET and CALL write the stack and the pc only (R121, R123). -/
theorem within_of_stack (s : State) (p : Word) (sp : Fin 17) (stack : Vector Word 16)
    (hs : .stack ∈ mayWrite i := by simp [mayWrite]) (hp : .pc ∈ mayWrite i := by simp [mayWrite])
    (hV : .V ∉ mayWrite i := by simp [mayWrite]) : Within i s { s with pc := p, sp := sp, stack := stack } :=
  within_of_frameExcept (frameExcept_withPc (frameExcept_withStack (frameExcept_refl _ s) hs sp stack) hp p) hV

/-- Reading a key draws at most a free value (R204). -/
theorem within_keyAt (s : State) (k : Byte) (hd : .draws ∈ mayWrite i := by simp [mayWrite])
    (hV : .V ∉ mayWrite i := by simp [mayWrite]) : Within i s (keyAt s k).2 :=
  within_of_frameExcept (frameExcept_of_drawn hd (keyAt_snd s k)) hV

end within

theorem within_ret {s t : State} (h : exec .ret s = .next t) : Within .ret s t := by
  by_cases empty : s.sp.val = 0
  · rw [exec_ret_of_sp_zero empty] at h
    cases h
  · rw [exec_ret_of_sp_succ (j := s.sp.val - 1) (by omega) (by omega)] at h
    cases h
    exact within_of_stack s _ _ s.stack

theorem within_call {nnn : Addr12} {s t : State} (h : exec (.call nnn) s = .next t) : Within (.call nnn) s t := by
  by_cases room : s.sp.val < 16
  · rw [exec_call_of_room nnn room] at h
    cases h
    exact within_of_stack s _ _ _
  · rw [exec_call_of_full nnn room] at h
    cases h

/-- Loading V0..Vx writes those registers only (R175). -/
theorem within_loadRegisters (x : Nibble) (s : State) : Within (.ldm x) s (s.loadRegisters x) := by
  refine ⟨frameExcept_withV (frameExcept_refl _ s) (by simp [mayWrite]) _, fun j unwritten => ?_⟩
  have above : ¬ j.toNat ≤ x.toNat := by simpa [writesReg] using unwritten
  rw [loadRegisters_reg, if_neg above]

/-- What an instruction that completes has changed is what its kind may write. -/
theorem within_exec {i : Instr} {s t : State} (h : exec i s = .next t) : Within i s t := by
  have start := within_refl i s
  have frame := frameExcept_refl (mayWrite i) s
  cases i with
  | unknown => cases h
  | ret => exact within_ret h
  | call => exact within_call h
  | jp | jpV0 | seImm | sneImm | seReg | sneReg => exact start.finish h
  | skp | sknp => exact (within_keyAt s _).finish h
  | ldImm | addImm | ldReg | orReg | andReg | xorReg | ldVxDT => exact (start.setReg _).finish h
  | addReg | subReg | shr | subnReg | shl => exact (start.writeFlagged _).finish h
  | rnd x kk =>
    have drawn : Within (.rnd x kk) s s.drawn := ⟨frameExcept_drawn frame (by simp [mayWrite]), fun _ _ => rfl⟩
    exact (drawn.setReg _).finish h
  | ldI | addI => exact (within_of_frameExcept (frameExcept_withI frame (by simp [mayWrite]) _)).finish h
  | ldF x =>
    have found : FrameExcept [.I, .draws, .pc] s (glyphAddress s (s.reg x)).2 := frameExcept_glyphAddress (by simp) _
    exact (within_of_frameExcept (i := .ldF x) (frameExcept_withI found (by simp) _)).finish h
  | cls => exact (within_of_frameExcept (frameExcept_withDisp frame (by simp [mayWrite]) _)).finish h
  | drw x y n =>
    have shown := frameExcept_withDisp frame (by simp [mayWrite]) (drwDrawing x y n s).disp
    have drawn : Within (.drw x y n) s { s with disp := (drwDrawing x y n s).disp } := ⟨shown, fun _ _ => rfl⟩
    exact (drawn.setReg _).finish (checkIndex_next h).2
  | ldVxK =>
    cases h
    exact within_of_frameExcept (frameExcept_withWait frame (by simp [mayWrite]) _)
  | ldDTVx => exact (within_of_frameExcept (frameExcept_withDT frame (by simp [mayWrite]) _)).finish h
  | ldSTVx => exact (within_of_frameExcept (frameExcept_withST frame (by simp [mayWrite]) _)).finish h
  | ldB | stm =>
    have stored := frameExcept_storeBytes frame (by simp [mayWrite]) s.I.toNat
    exact (within_of_frameExcept (stored _)).finish (checkIndex_next h).2
  | ldm x => exact (within_loadRegisters x s).finish (checkIndex_next h).2

/-- Settles O45: kind by kind, the writes of `exec` are among those listed. -/
theorem instructionsWriteOnlyTheirComponents : Obligations.InstructionsWriteOnlyTheirComponents :=
  fun _ _ _ => within_exec

/-- A component that a kind may not write is the same after an instruction of the kind. -/
theorem unchanged_of_exec {i : Instr} {s t : State} (h : exec i s = .next t) {c : Component} (hc : c ∉ mayWrite i) :
    Unchanged c s t :=
  (within_exec h).1 c hc

end Sys2Proof.Machine
end

section
/-! What no instruction reads: the sound timer (R25) and, but for DRW, the display (R193). Both are outputs, and the two
claims are one fact about replacing them. -/

namespace Sys2Proof.Machine

/-- A state with its outputs replaced: another sound timer and another display. -/
def State.withOutputs (s : State) (v : Byte) (d : Display) : State := { s with ST := v, disp := d }

section outputs
variable (s : State) {t u : State} (v : Byte) (d : Display)

theorem finish_withOutputs {r : NextPc} (h : u.finish r = .next t) :
    (u.withOutputs v d).finish r = .next (t.withOutputs v d) := by
  rw [finish_eq_next.mp h]
  rfl

theorem checkIndex_withOutputs {s : State} {n : Nat} {r : NextPc} (h : s.checkIndex n (u.finish r) = .next t) :
    (s.withOutputs v d).checkIndex n ((u.withOutputs v d).finish r) = .next (t.withOutputs v d) := by
  obtain ⟨fits, runs⟩ := checkIndex_next h
  exact (checkIndex_pass (s := s.withOutputs v d) fits _).trans (finish_withOutputs v d runs)

theorem writeFlagged_withOutputs (x : Nibble) (r : Flagged) :
    (s.withOutputs v d).writeFlagged x r = (s.writeFlagged x r).withOutputs v d := by
  have order : (s.withOutputs v d).params = s.params := rfl
  rw [State.writeFlagged, State.writeFlagged, order]
  split <;> rfl

theorem keyAt_withOutputs (k : Byte) :
    keyAt (s.withOutputs v d) k = ((keyAt s k).1, (keyAt s k).2.withOutputs v d) := by
  have policy : (s.withOutputs v d).params = s.params := rfl
  rw [keyAt, keyAt, policy]
  split
  · rfl
  · split <;> rfl

theorem glyphAddress_withOutputs (b : Byte) :
    glyphAddress (s.withOutputs v d) b = ((glyphAddress s b).1, (glyphAddress s b).2.withOutputs v d) := by
  have policy : (s.withOutputs v d).params = s.params := rfl
  rw [glyphAddress, glyphAddress, policy]
  split
  · rfl
  · split <;> rfl

theorem exec_ret_withOutputs {s : State} (h : exec .ret s = .next t) :
    exec .ret (s.withOutputs v d) = .next (t.withOutputs v d) := by
  by_cases empty : s.sp.val = 0
  · rw [exec_ret_of_sp_zero empty] at h
    cases h
  · obtain ⟨j, depth⟩ := Nat.exists_eq_succ_of_ne_zero empty
    rw [exec_ret_of_sp_succ (by omega) depth] at h
    cases h
    exact exec_ret_of_sp_succ (s := s.withOutputs v d) (by omega) depth

theorem exec_call_withOutputs {s : State} {nnn : Addr12} (h : exec (.call nnn) s = .next t) :
    exec (.call nnn) (s.withOutputs v d) = .next (t.withOutputs v d) := by
  by_cases room : s.sp.val < 16
  · rw [exec_call_of_room nnn room] at h
    cases h
    exact exec_call_of_room (s := s.withOutputs v d) nnn room
  · rw [exec_call_of_full nnn room] at h
    cases h

variable {s}

/-- From replaced outputs every instruction but DRW answers the same state, but for the replaced outputs that it did not
write. -/
theorem exec_withOutputs {i : Instr} (h : exec i s = .next t) (notDraw : ∀ x y n : Nibble, i ≠ .drw x y n) :
    exec i (s.withOutputs v d) = .next (t.withOutputs (if .ST ∈ mayWrite i then t.ST else v)
      (if .disp ∈ mayWrite i then t.disp else d)) := by
  cases i with
  | drw x y n => exact absurd rfl (notDraw x y n)
  | unknown => cases h
  | cls | ldSTVx | jp | jpV0 | seImm | sneImm | seReg | sneReg | ldImm | addImm | ldReg | orReg | andReg | xorReg | rnd |
      ldI | addI | ldVxDT | ldVxK | ldDTVx =>
    cases h
    rfl
  | addReg | subReg | shr | subnReg | shl =>
    exact (congrArg (State.finish · .seq) (writeFlagged_withOutputs s v d _ _)).trans (finish_withOutputs v d h)
  | skp x =>
    have read := congrArg (fun p : Bool × State => p.2.finish (.skip p.1)) (keyAt_withOutputs s v d (s.reg x))
    exact read.trans (finish_withOutputs v d h)
  | sknp x =>
    have read := congrArg (fun p : Bool × State => p.2.finish (.skip (!p.1))) (keyAt_withOutputs s v d (s.reg x))
    exact read.trans (finish_withOutputs v d h)
  | ldF x =>
    have found := congrArg (fun p : Word × State => { p.2 with I := p.1 }.finish .seq)
      (glyphAddress_withOutputs s v d (s.reg x))
    exact found.trans (finish_withOutputs v d h)
  | ldB | stm | ldm =>
    have answer := checkIndex_withOutputs v d h
    exact answer
  | ret => exact exec_ret_withOutputs v d h
  | call => exact exec_call_withOutputs v d h

/-- DRW reads the display, but not the sound timer. -/
theorem exec_drw_withST {x y n : Nibble} (h : exec (.drw x y n) s = .next t) :
    exec (.drw x y n) (s.withOutputs v s.disp) = .next (t.withOutputs v t.disp) := by
  obtain ⟨fits, runs⟩ := checkIndex_next h
  cases runs
  exact checkIndex_pass (s := s.withOutputs v s.disp) fits _

end outputs

/-- Settles O46: with the display kept, only ST itself can differ. -/
theorem noInstructionReadsTheSoundTimer : Obligations.NoInstructionReadsTheSoundTimer := by
  intro i s t v h
  by_cases draw : ∃ x y n : Nibble, i = .drw x y n
  · obtain ⟨x, y, n, rfl⟩ := draw
    exact ⟨_, exec_drw_withST v h, rfl⟩
  · push Not at draw
    refine ⟨_, exec_withOutputs v s.disp h draw, ?_⟩
    have shown : (if .disp ∈ mayWrite i then t.disp else s.disp) = t.disp := by
      split
      · rfl
      · have kept : t.disp = s.disp := unchanged_of_exec (c := .disp) h ‹_›
        exact kept.symm
    rw [shown]
    rfl

/-- Settles O47: with the sound timer kept, only the display itself can differ. -/
theorem onlyDrawReadsTheDisplay : Obligations.OnlyDrawReadsTheDisplay := by
  intro i s t d notDraw h
  refine ⟨_, exec_withOutputs s.ST d h notDraw, ?_⟩
  have sounding : (if .ST ∈ mayWrite i then t.ST else s.ST) = t.ST := by
    split
    · rfl
    · have kept : t.ST = s.ST := unchanged_of_exec (c := .ST) h ‹_›
      exact kept.symm
  rw [sounding]
  rfl

end Sys2Proof.Machine
end

section
/-! The invariant of the machine (R101, R106, C8): memory, the pc, the return addresses and the wait, one after the other,
through an execution, and then together through a step. -/

namespace Sys2Proof.Machine

/-! ## Memory -/

/-- Settles O56: a store of one byte, at an address that exists. -/
theorem memoryReadsAsLastWritten : Obligations.MemoryReadsAsLastWritten := by
  intro s a b v ok inMemory
  have fits : a + [v].length ≤ Config.memSize := inMemory
  refine ⟨storeBytes_wf ok [v] fits, ?_⟩
  rw [storeBytes_byteAt ok [v] fits]
  by_cases here : b = a
  · simp [here]
  · have outside : ¬ (a ≤ b ∧ b < a + [v].length) := by
      rw [List.length_singleton]
      omega
    rw [dif_neg outside, if_neg here]

section exec
variable {i : Instr} {s t u : State}

/-- An instruction whose writes `u` left memory alone leaves it alone. -/
theorem mem_of_finish {r : NextPc} (h : u.finish r = .next t) (same : u.mem = s.mem) : t.mem = s.mem := by
  rw [finish_eq_next.mp h, same]

theorem mem_of_drawn (h : u = s ∨ u = s.drawn) : u.mem = s.mem := by
  obtain rfl | rfl := h <;> rfl

theorem exec_ret_mem (h : exec .ret s = .next t) : t.mem = s.mem := by
  obtain ⟨j, hj, depth, -⟩ := execRet_pc h
  rw [exec_ret_of_sp_succ hj depth] at h
  cases h
  rfl

theorem exec_call_mem {nnn : Addr12} (h : exec (.call nnn) s = .next t) : t.mem = s.mem := by
  by_cases room : s.sp.val < 16
  · rw [exec_call_of_room nnn room] at h
    cases h
    rfl
  · rw [exec_call_of_full nnn room] at h
    cases h

/-- What an instruction can do to memory: nothing, or one store at I of bytes that are all within memory (R53, R56). -/
theorem exec_mem (h : exec i s = .next t) : t.mem = s.mem ∨
    ∃ vs : List Byte, s.I.toNat + vs.length ≤ Config.memSize ∧ t.mem = (s.storeBytes s.I.toNat vs).mem := by
  cases i with
  | ldB x =>
    obtain ⟨fits, runs⟩ := checkIndex_next h
    exact .inr ⟨decimalDigits (s.reg x), fits.resolve_left (by decide), mem_of_finish runs rfl⟩
  | stm x =>
    obtain ⟨fits, runs⟩ := checkIndex_next h
    refine .inr ⟨registersUpTo s x, ?_, mem_of_finish runs rfl⟩
    rw [length_registersUpTo]
    exact fits.resolve_left (by omega)
  | unknown => cases h
  | ret => exact .inl (exec_ret_mem h)
  | call => exact .inl (exec_call_mem h)
  | drw | ldm => exact .inl (mem_of_finish (checkIndex_next h).2 rfl)
  | addReg | subReg | shr | subnReg | shl => exact .inl (mem_of_finish h (writeFlagged_mem s _ _))
  | skp x | sknp x => exact .inl (mem_of_finish h (mem_of_drawn (keyAt_snd s (s.reg x))))
  | ldF x =>
    have found : (glyphAddress s (s.reg x)).2.mem = s.mem := mem_of_drawn (glyphAddress_snd s _)
    exact .inl (mem_of_finish h found)
  | cls | ldSTVx | jp | jpV0 | seImm | sneImm | seReg | sneReg | ldImm | addImm | ldReg | orReg | andReg | xorReg | rnd |
      ldI | addI | ldVxDT | ldVxK | ldDTVx => exact .inl (mem_of_finish h rfl)

/-- No instruction changes the parameters (log entry 6). -/
theorem exec_params (h : exec i s = .next t) : t.params = s.params := by
  refine unchanged_of_exec (c := .params) h ?_
  cases i <;> simp [mayWrite]

theorem exec_memOk (h : exec i s = .next t) (ok : s.MemOk) : t.MemOk := by
  rw [State.MemOk, exec_params h]
  obtain kept | ⟨vs, fits, stored⟩ := exec_mem h
  · exact kept ▸ ok
  · exact stored ▸ storeBytes_wf ok vs fits

/-! ## The pc and the return addresses -/

/-- Every live return address is at most 0x1000 (R106). -/
def State.ReturnsOk (s : State) : Prop := ∀ (j : Nat) (h : j < 16), j < s.sp.val → s.stack[j].toNat ≤ 0x1000

/-- From where a fetch succeeds, no advance of the pc wraps. -/
theorem toNat_pc_add (h : s.pc.toNat ≤ 0xFFE) : (s.pc + 2).toNat = s.pc.toNat + 2 ∧ (s.pc + 4).toNat = s.pc.toNat + 4 := by
  constructor <;> bv_omega

/-- An instruction that was fetched leaves the pc at most at 0x10FE, the highest target of JP V0,nnn (R106, R128). -/
theorem exec_pc_le (h : exec i s = .next t) (pc : s.pc.toNat ≤ 0xFFE) (returns : s.ReturnsOk) :
    t.pc.toNat ≤ 0x10FE := by
  have request := eachKindMakesItsPcRequest s t i h
  obtain ⟨next, skip⟩ := toNat_pc_add pc
  cases i with
  | seImm | sneImm | seReg | sneReg | skp | sknp =>
    obtain moved | moved := request <;> rw [moved] <;> omega
  | jp nnn | call nnn =>
    have target : t.pc.toNat = nnn.toNat := request
    omega
  | jpV0 nnn =>
    have target : t.pc.toNat = (s.reg 0#4).toNat + nnn.toNat := request
    omega
  | ret =>
    obtain ⟨j, hj, depth, target⟩ := request
    have live := returns j hj (by omega)
    rw [target]
    omega
  | ldVxK =>
    have held : t.pc = s.pc := request
    rw [held]
    omega
  | unknown => exact absurd request id
  | _ =>
    have moved : t.pc = s.pc + 2 := request
    rw [moved]
    omega

/-- The stack stays in order: a RET only uncovers fewer slots, and a CALL fills one with the pc + 2 (R121, R123). -/
theorem exec_returnsOk (h : exec i s = .next t) (pc : s.pc.toNat ≤ 0xFFE) (returns : s.ReturnsOk) : t.ReturnsOk := by
  by_cases written : .stack ∈ mayWrite i
  · cases i with
    | ret =>
      obtain ⟨d, hd, depth, -⟩ := execRet_pc h
      rw [exec_ret_of_sp_succ hd depth] at h
      cases h
      intro j hj live
      exact returns j hj (by rw [depth]; exact Nat.lt_succ_of_lt live)
    | call nnn =>
      by_cases room : s.sp.val < 16
      · rw [exec_call_of_room nnn room] at h
        cases h
        intro j hj live
        rw [Vector.getElem_set]
        split
        · obtain ⟨next, -⟩ := toNat_pc_add pc
          omega
        · have below : j < s.sp.val := by
            change j < s.sp.val + 1 at live
            omega
          exact returns j hj below
      · rw [exec_call_of_full nnn room] at h
        cases h
    | _ => simp [mayWrite] at written
  · obtain ⟨sameSp, sameStack⟩ : t.sp = s.sp ∧ t.stack = s.stack := unchanged_of_exec (c := .stack) h written
    intro j hj live
    simp only [sameStack]
    exact returns j hj (sameSp ▸ live)

/-! ## The wait -/

/-- Only LD Vx,K begins a wait, with its own register, and it leaves everything else as it was (R202). -/
theorem exec_wait (h : exec i s = .next t) (running : s.wait = none) {w : Waiting} (waits : t.wait = some w) :
    i = .ldVxK w.x ∧ t = { s with wait := some w } := by
  by_cases written : .wait ∈ mayWrite i
  · cases i with
    | ldVxK x =>
      cases h
      cases waits
      exact ⟨rfl, rfl⟩
    | _ => simp [mayWrite] at written
  · have same : t.wait = s.wait := unchanged_of_exec (c := .wait) h written
    rw [same, running] at waits
    cases waits

end exec

/-! ## The step -/

section step
variable {s t u : State}

/-- Executing the instruction that was fetched keeps the invariant. -/
theorem inv_exec {v : Word} (inv : s.Inv) (running : s.wait = none) (pc : s.pc.toNat ≤ 0xFFE) (fetched : s.fetch16 = .ok v)
    (h : exec (decodeWord s.params.strictDecode v) s = .next t) : t.Inv where
  mem := exec_memOk h inv.mem
  pc := exec_pc_le h pc inv.stack
  stack := exec_returnsOk h pc inv.stack
  wait w waits := by
    obtain ⟨decoded, rfl⟩ := exec_wait h running waits
    exact ⟨v, fetched, decoded⟩

/-- A pending wait stands where the fetch succeeds. -/
theorem pc_le_of_fetch16_ok {v : Word} (h : s.fetch16 = .ok v) : s.pc.toNat ≤ 0xFFE := by
  by_contra beyond
  rw [fetch16_error (by omega)] at h
  cases h

/-- The step that ends a wait keeps the invariant: it writes a register and moves the pc by 2 from where it fetched. -/
theorem inv_waitDone (inv : s.Inv) (pc : s.pc.toNat ≤ 0xFFE) (chosen : u = s ∨ u = s.drawn) (x : Nibble) (v : Byte) :
    State.Inv { u.setReg x v with wait := none, pc := s.pc + 2 } := by
  obtain ⟨next, -⟩ := toNat_pc_add pc
  have moved : (s.pc + 2).toNat ≤ 0x10FE := by omega
  obtain rfl | rfl := chosen
  · exact ⟨inv.mem, moved, inv.stack, fun w waits => by cases waits⟩
  · exact ⟨inv.mem, moved, inv.stack, fun w waits => by cases waits⟩

/-- A waiting step keeps the invariant. -/
theorem inv_waitStep {w : Waiting} (inv : s.Inv) (waiting : s.wait = some w) : (waitStep w s).Inv := by
  obtain ⟨v, fetched, decoded⟩ := inv.wait w waiting
  cases fresh : freshKeys s.keys w.snap with
  | nil =>
    rw [waitStep_idle fresh]
    refine ⟨inv.mem, inv.pc, inv.stack, fun w' waits => ?_⟩
    cases waits
    exact ⟨v, fetched, decoded⟩
  | cons k ks =>
    rw [waitStep_done fresh]
    exact inv_waitDone inv (pc_le_of_fetch16_ok fetched) (selectKey_snd s k ks) _ _

end step

/-- Settles O57: a step is a waiting step, or executes the instruction it fetched. -/
theorem stepKeepsTheInvariant : Obligations.StepKeepsTheInvariant := by
  intro s t inv h
  obtain ⟨w, waiting, rfl⟩ | ⟨running, pc, v, fetched, runs⟩ := step_next h
  · exact inv_waitStep inv waiting
  · exact inv_exec inv running pc fetched runs

/-- At reset nothing is listed in memory, no return address is live and nothing waits (R34). -/
theorem inv_resetWith (p : Params) : (State.resetWith p).Inv := by
  have start : Config.programStart.toNat ≤ 0x10FE := by decide
  exact ⟨resetWith_mem_wf p, start, fun j _ live => absurd live (Nat.not_lt_zero j), fun w waits => by cases waits⟩

/-- Settles O58: the machine's invariant at reset, and that nothing waits then. -/
theorem resetMeetsTheInvariant : Obligations.ResetMeetsTheInvariant :=
  ⟨inv_resetWith Params.default, fun p => ⟨inv_resetWith p, fun _ => rfl⟩⟩

/-- Settles O60: both steps leave a marker with the same register and the keypad as it is, and nothing else changes. -/
theorem markerAgreesWithReissue : Obligations.MarkerAgreesWithReissue := by
  intro s w inv waiting fresh
  obtain ⟨v, fetched, decoded⟩ := inv.wait w waiting
  have marker : step s = .next { s with wait := some { w with snap := s.keys } } := by
    rw [step_of_wait waiting, waitStep_idle fresh]
  have reissue : step { s with wait := none } = exec (.ldVxK w.x) { s with wait := none } :=
    decoded ▸ step_of_fetch16_ok (s := { s with wait := none }) rfl fetched
  rw [marker, reissue]
  rfl

end Sys2Proof.Machine
end

section
/-! The host's operations (R241 to R252): everything that one can make of a session, and what a list of them keeps. -/

namespace Sys2Proof.Machine

/-- What each operation that is not refused makes of a session: one rule per way it can end. -/
inductive Session.Moves (g : Session) : HostOp → Session → Prop where
  | reset : Moves g .reset { g with machine := hostReset g.machine, phase := .fresh }
  | load {bytes : List Byte} {dest : Nat} (fresh : g.phase = .fresh) (fits : dest + bytes.length ≤ Config.memSize) :
    Moves g (.loadImage bytes dest) { g with machine := g.machine.storeBytes dest bytes }
  | loadBeyond {bytes : List Byte} {dest : Nat} (f : Fault) : Moves g (.loadImage bytes dest) (g.recordFault f)
  | step {t : State} (h : step g.machine = .next t) : Moves g .step { g with machine := t, phase := .running }
  | stepFault (f : Fault) : Moves g .step (({ g with phase := .running } : Session).recordFault f)
  | cycle {t : State} (h : step g.machine = .next t) (due : Bool) :
    Moves g (.cycle due) { g with machine := if due then tick t else t, phase := .running }
  | cycleFault (f : Fault) (due : Bool) : Moves g (.cycle due) (({ g with phase := .running } : Session).recordFault f)
  | tick : Moves g .tick { g with machine := tick g.machine }
  | setKey {k : Nat} (pressed : Bool) (h : k < 16) :
    Moves g (.setKey k pressed) { g with machine := { g.machine with keys := g.machine.keys.set k pressed h } }
  | readDisplay : Moves g .readDisplay g
  | readSound : Moves g .readSound g

/-! ## LoadImage -/

section load
variable {g : Session} {bytes : List Byte} {dest : Nat}

/-- After the first Step LoadImage has no move (R252, R246). -/
theorem apply_loadImage_running (running : g.phase = .running) :
    g.apply (.loadImage bytes dest) = .error .loadAfterFirstStep := by
  simp only [Session.apply, running]

/-- An image that does not fit is LoadOutOfBounds, recorded (R252, R229). -/
theorem apply_loadImage_beyond (fresh : g.phase = .fresh) (beyond : dest + bytes.length > Config.memSize) :
    g.apply (.loadImage bytes dest) =
      .ok (g.recordFault (.loadOutOfBounds dest bytes.length), .err (.loadOutOfBounds dest bytes.length)) := by
  simp only [Session.apply, fresh, loadImage, if_pos beyond]

/-- An image that fits is stored (R252). -/
theorem apply_loadImage_fits (fresh : g.phase = .fresh) (fits : dest + bytes.length ≤ Config.memSize) :
    g.apply (.loadImage bytes dest) = .ok ({ g with machine := g.machine.storeBytes dest bytes }, .ok) := by
  simp only [Session.apply, fresh, loadImage, if_neg (Nat.not_lt_of_le fits)]

/-- A LoadImage that is not refused stores the image or records an error. -/
theorem moves_of_apply_loadImage {g' : Session} {r : Reply} (h : g.apply (.loadImage bytes dest) = .ok (g', r)) :
    g.Moves (.loadImage bytes dest) g' := by
  cases phase : g.phase with
  | running =>
    rw [apply_loadImage_running phase] at h
    cases h
  | fresh =>
    by_cases fits : dest + bytes.length ≤ Config.memSize
    · rw [apply_loadImage_fits phase fits] at h
      cases h
      exact .load phase fits
    · rw [apply_loadImage_beyond phase (Nat.lt_of_not_le fits)] at h
      cases h
      exact .loadBeyond _

end load

/-! ## Every operation -/

section moves
variable {g g' : Session} {op : HostOp}

theorem moves_of_apply_step {r : Reply} (h : g.apply .step = .ok (g', r)) : g.Moves .step g' := by
  cases answer : step g.machine with
  | next t =>
    rw [apply_step_of_next answer] at h
    cases h
    exact .step answer
  | fault f =>
    rw [apply_step_of_fault answer] at h
    cases h
    exact .stepFault f
  | refused => simp [Session.apply, answer, Session.afterStep] at h

theorem moves_of_apply_cycle {due : Bool} {r : Reply} (h : g.apply (.cycle due) = .ok (g', r)) :
    g.Moves (.cycle due) g' := by
  cases answer : step g.machine with
  | next t =>
    rw [apply_cycle_of_next answer] at h
    cases h
    exact .cycle answer due
  | fault f =>
    rw [apply_cycle_of_fault answer] at h
    cases h
    exact .cycleFault f due
  | refused => simp [Session.apply, cycle, answer, Session.afterStep] at h

theorem moves_of_apply_setKey {k : Nat} {pressed : Bool} {r : Reply} (h : g.apply (.setKey k pressed) = .ok (g', r)) :
    g.Moves (.setKey k pressed) g' := by
  by_cases inRange : k < 16
  · rw [apply_setKey g pressed inRange] at h
    cases h
    exact .setKey pressed inRange
  · rw [apply_setKey_beyond g pressed inRange] at h
    cases h

/-- `Session.Moves` lists all that an operation can do. -/
theorem moves_of_apply {r : Reply} (h : g.apply op = .ok (g', r)) : g.Moves op g' := by
  cases op with
  | reset => cases h; exact .reset
  | loadImage => exact moves_of_apply_loadImage h
  | step => exact moves_of_apply_step h
  | tick => cases h; exact .tick
  | cycle => exact moves_of_apply_cycle h
  | setKey => exact moves_of_apply_setKey h
  | readDisplay => cases h; exact .readDisplay
  | readSound => cases h; exact .readSound

/-- What each operation keeps, a list of them keeps. -/
theorem run_induction {P : Session → Prop} (keeps : ∀ {g g' op}, Session.Moves g op g' → P g → P g') {ops : List HostOp}
    (h : g.run ops = .ok g') (start : P g) : P g' := by
  induction ops generalizing g with
  | nil =>
    cases h
    exact start
  | cons op ops ih =>
    obtain ⟨g₁, r, first, rest⟩ := run_cons h
    exact ih rest (keeps (moves_of_apply first) start)

/-! ## The fault record -/

theorem recordFault_faulted {f : Fault} (recorded : g.faulted = some f) (f' : Fault) :
    (g.recordFault f').faulted = some f := by
  rw [Session.recordFault, recorded, Option.some_or]

/-- No operation clears or replaces a recorded error (R229). -/
theorem moves_faulted {f : Fault} (h : g.Moves op g') (recorded : g.faulted = some f) : g'.faulted = some f := by
  cases h with
  | loadBeyond f' => exact recordFault_faulted recorded f'
  | stepFault f' | cycleFault f' => exact recordFault_faulted (g := { g with phase := .running }) recorded f'
  | reset | load | step | cycle | tick | setKey | readDisplay | readSound => exact recorded

end moves

/-- Settles O44: the record outlives every operation, and where it holds an error the run has not ended successfully. -/
theorem faultRecordIsSticky : Obligations.FaultRecordIsSticky := by
  intro g g' f ops haltPc recorded runs
  have still : g'.faulted = some f := run_induction moves_faulted runs recorded
  exact ⟨still, by simp [Session.ended, still]⟩

/-- Settles O50: Reset is `resetWith`, but for the draw counter. -/
theorem resetForgetsTheRun : Obligations.ResetForgetsTheRun :=
  fun _ => ⟨_, rfl, rfl, rfl⟩

/-- Settles O51: by the phase and by whether the image fits; the phases are those of `Session.Moves`. -/
theorem loadImageWritesTheImage : Obligations.LoadImageWritesTheImage := by
  intro g bytes dest
  refine ⟨apply_loadImage_running, fun fresh beyond => ?_, fun fresh ok fits => ?_, fun op g' r applied => ?_⟩
  · exact ⟨_, apply_loadImage_beyond fresh beyond, rfl⟩
  · have stored := storeBytes_byteAt ok bytes fits
    refine ⟨_, apply_loadImage_fits fresh fits, fun j hj => ?_, fun a outside => ?_, ?_, fresh⟩
    · have inside : dest ≤ dest + j ∧ dest + j < dest + bytes.length := by omega
      rw [stored, dif_pos inside]
      simp only [Nat.add_sub_cancel_left]
    · rw [stored, dif_neg (by omega)]
    · exact frameExcept_storeBytes (frameExcept_refl _ _) (by simp) _ _
  · cases moves_of_apply applied <;> rfl

/-! ## The invariant of a session -/

section invariant
variable {s t : State}

/-- No step changes the parameters (log entry 6). -/
theorem step_params (h : step s = .next t) : t.params = s.params := by
  obtain ⟨w, -, rfl⟩ | ⟨-, -, v, -, runs⟩ := step_next h
  · cases fresh : freshKeys s.keys w.snap with
    | nil => exact waitStep_idle_frame fresh .params (by decide)
    | cons k ks => exact waitStep_done_frame fresh .params (by decide)
  · exact exec_params runs

theorem inv_tick (inv : s.Inv) : (tick s).Inv :=
  ⟨inv.mem, inv.pc, inv.stack, inv.wait⟩

theorem inv_withKeys (inv : s.Inv) (keys : Keypad) : State.Inv { s with keys := keys } :=
  ⟨inv.mem, inv.pc, inv.stack, inv.wait⟩

/-- A Reset is `resetWith`, but for the draw counter, of which the invariant says nothing. -/
theorem inv_hostReset (s : State) : (hostReset s).Inv := by
  obtain ⟨mem, pc, stack, wait⟩ := inv_resetWith s.params
  exact ⟨mem, pc, stack, wait⟩

/-- An image may be loaded anywhere where nothing waits, for a wait stands at bytes of memory. -/
theorem inv_load (inv : s.Inv) (running : s.wait = none) {dest : Nat} {bytes : List Byte}
    (fits : dest + bytes.length ≤ Config.memSize) : (s.storeBytes dest bytes).Inv := by
  refine ⟨storeBytes_wf inv.mem bytes fits, inv.pc, inv.stack, fun w waits => ?_⟩
  rw [storeBytes_wait, running] at waits
  cases waits

/-- Every operation keeps the invariant of the session and the parameters. -/
theorem moves_keep {g g' : Session} {op : HostOp} {p : Params} (h : g.Moves op g')
    (start : g.Inv ∧ g.machine.params = p) : g'.Inv ∧ g'.machine.params = p := by
  obtain ⟨⟨inv, idle⟩, params⟩ := start
  cases h with
  | reset => exact ⟨⟨inv_hostReset _, fun _ => rfl⟩, params⟩
  | load fresh fits => exact ⟨⟨inv_load inv (idle fresh) fits, idle⟩, params⟩
  | step h => exact ⟨⟨stepKeepsTheInvariant _ _ inv h, nofun⟩, (step_params h).trans params⟩
  | cycle h due =>
    have stepped := stepKeepsTheInvariant _ _ inv h
    cases due with
    | false => exact ⟨⟨stepped, nofun⟩, (step_params h).trans params⟩
    | true => exact ⟨⟨inv_tick stepped, nofun⟩, (step_params h).trans params⟩
  | stepFault | cycleFault => exact ⟨⟨inv, nofun⟩, params⟩
  | tick => exact ⟨⟨inv_tick inv, idle⟩, params⟩
  | setKey => exact ⟨⟨inv_withKeys inv _, idle⟩, params⟩
  | loadBeyond | readDisplay | readSound => exact ⟨⟨inv, idle⟩, params⟩

end invariant

/-- Settles O59: by induction over the operations, each of which keeps both. -/
theorem everyScheduleKeepsTheInvariant : Obligations.EveryScheduleKeepsTheInvariant :=
  fun _ _ _ inv runs => run_induction moves_keep runs ⟨inv, rfl⟩

end Sys2Proof.Machine
end

section
/-! One instruction after another: what a step runs, two executions that belong together, and a wait and the key that ends it. -/

namespace Sys2Proof.Machine

/-! ## What a step runs -/

/-- Settles O8: the fetch gives the big-endian word at pc, and with no wait pending the step executes it. -/
theorem stepRunsDecodedInstruction : Obligations.StepRunsDecodedInstruction := by
  rintro s i running pc rfl
  exact step_of_fetch16_ok running (fetch16_ok pc)

/-- Settles O41: `exec_answers`, by whether the instruction has an error of its own. -/
theorem execCompletesOrRaisesItsOwnError : Obligations.ExecCompletesOrRaisesItsOwnError := by
  intro i s
  have answers := exec_answers i s
  exact ⟨fun f error => by rwa [error] at answers, fun noError => by rwa [noError] at answers⟩

/-- The word of `JP nnn` as the spec writes it (R247). -/
theorem or_setWidth_eq_wordNNN (nnn : Addr12) : 0x1000#16 ||| nnn.setWidth 16 = wordNNN 0x1#4 nnn := by
  apply BitVec.eq_of_toNat_eq
  rw [toNat_wordNNN, BitVec.toNat_or, ← absolute, toNat_absolute]
  exact append_toNat_eq 1 nnn.isLt

/-- A jump to its own address is a step to the same state. -/
theorem exec_jp_self {s : State} {nnn : Addr12} (h : s.pc = absolute nnn) : exec (.jp nnn) s = .next s := by
  change Host.Outcome.next { s with pc := absolute nnn } = .next s
  rw [← h]

/-- Settles O55: the word at pc decodes to a jump to pc. -/
theorem haltLoopStepsToItself : Obligations.HaltLoopStepsToItself := by
  intro s haltPc running atPc pc word
  have here : s.pc = absolute haltPc := BitVec.eq_of_toNat_eq (atPc.trans (toNat_absolute haltPc).symm)
  have fetched : s.fetch16 = .ok (wordNNN 0x1#4 haltPc) := by rw [fetch16_ok pc, word, or_setWidth_eq_wordNNN]
  constructor
  · rw [step_of_fetch16_ok running fetched, decodeWord_of_decodes _ (.jp haltPc) (by simp), exec_jp_self here]
  · simp [State.atHalt, running, here, fetched]

/-! ## Two instructions in a row -/

/-- Settles O15: the RET pops the slot that the CALL filled. -/
theorem callThenReturnComesBack : Obligations.CallThenReturnComesBack := by
  intro nnn s room
  refine ⟨_, _, exec_call_of_room nnn room, exec_ret_of_sp_succ room rfl, ?_, rfl, frameExcept_pc_stack s _ _ _⟩
  exact Vector.getElem_set_self room

/-- Settles O24: a draw, then a write of one register. -/
theorem randomIsMasked : Obligations.RandomIsMasked := by
  refine ⟨fun strict x kk => decodeWord_of_decodes strict (.rnd x kk) (by simp), fun x kk s => ?_⟩
  refine ⟨_, rfl, fun b => ?_, fun j other => ?_, rfl, rfl, ?_⟩
  · rw [withPc_reg, setReg_reg, if_pos rfl, BitVec.getLsbD_and]
  · rw [withPc_reg, setReg_reg, if_neg other, drawn_reg]
  · exact (within_exec (i := .rnd x kk) rfl).1

/-- Settles O30: the load reads I..I+x, where the dump stored V0..Vx. -/
theorem dumpThenLoadRestores : Obligations.DumpThenLoadRestores := by
  intro x s regs ok fits
  obtain ⟨t, dumps, stored, -, -, frame⟩ := (registersAreDumped.2 x s).2 ok fits
  have sameI : t.I = s.I := frame .I (by decide)
  obtain ⟨u, loads, loaded, -, -, frame'⟩ := (registersAreLoaded.2 x { t with V := regs }).2 (by rw [sameI]; exact fits)
  refine ⟨t, u, dumps, loads, fun j upTo => ?_, (frame' .I (by decide)).trans sameI⟩
  rw [loaded j upTo, ← stored j upTo, ← sameI]
  rfl

/-- The first 15 registers are each followed by the next. -/
theorem toNat_nextReg {j x : Nibble} (h : j.toNat < x.toNat) : (j + 1).toNat = j.toNat + 1 := by
  bv_omega

/-- Settles O31: the two bytes that the next step fetches are where Vj and V(j+1) were stored. -/
theorem storedCodeIsFetched : Obligations.StoredCodeIsFetched := by
  intro x j s t ok running pc below atNext dumps
  have fits := (checkIndex_next dumps).1.resolve_left (by omega)
  obtain ⟨t', dumps', stored, -, moved, frame⟩ := (registersAreDumped.2 x s).2 ok (by omega)
  obtain rfl : t' = t := by
    rw [dumps', Host.Outcome.next.injEq] at dumps
    exact dumps
  have waits : t'.wait = none := (frame .wait (by decide)).trans running
  have params : t'.params = s.params := frame .params (by decide)
  have fetchAt : t'.pc.toNat = s.I.toNat + j.toNat := by
    rw [moved, atNext]
    exact (toNat_pc_add (by omega)).1
  have high : t'.byteAt t'.pc.toNat = s.reg j := by rw [fetchAt, stored j (by omega)]
  have low : t'.byteAt (t'.pc.toNat + 1) = s.reg (j + 1) := by
    have next := toNat_nextReg below
    rw [fetchAt, Nat.add_assoc, ← next, stored (j + 1) (by omega)]
  rw [step_of_fetch16_ok waits (fetch16_ok (by omega)), params, high, low]

/-! ## Drawing twice -/

section sprite
variable (sprite : Nat → Byte) (x0 y0 : Byte) {n : Nat}

/-- The XOR of a sprite undoes itself (R191). -/
theorem disp_drawSprite_twice (hn : n ≤ 32) (d : Display) :
    (drawSprite sprite x0 y0 n (drawSprite sprite x0 y0 n d).disp).disp = d := by
  refine display_ext fun row col => ?_
  rw [pixel_drawSprite _ _ _ hn, pixel_drawSprite _ _ _ hn, Bool.xor_assoc, Bool.xor_self, Bool.xor_false]

/-- A drawing collides exactly where a 1 bit of the sprite meets a pixel that is on (R191). -/
theorem collide_drawSprite_iff (hn : n ≤ 32) (d : Display) : (drawSprite sprite x0 y0 n d).collide = true ↔
    ∃ r c : Nat, r < n ∧ c < 8 ∧ (sprite r).getLsbD (7 - c) = true ∧
      pixel d (wrapRow (y0.toNat + r)) (wrapCol (x0.toNat + c)) = true := by
  simp only [collide_drawSprite sprite x0 y0 hn, List.any_eq_true, List.mem_range, Bool.and_eq_true]
  constructor
  · rintro ⟨r, hr, c, hc, met⟩
    exact ⟨r, c, hr, hc, met⟩
  · rintro ⟨r, c, hr, hc, met⟩
    exact ⟨r, hr, c, hc, met⟩

/-- Over a drawing on a blank display, each 1 bit meets the pixel that it turned on. -/
theorem pixel_drawSprite_blank (hn : n ≤ 32) {d : Display} (blank : ∀ row col, pixel d row col = false) {r c : Nat}
    (hr : r < n) (hc : c < 8) :
    pixel (drawSprite sprite x0 y0 n d).disp (wrapRow (y0.toNat + r)) (wrapCol (x0.toNat + c)) =
      (sprite r).getLsbD (7 - c) := by
  rw [pixel_drawSprite _ _ _ hn, blank, Bool.false_xor, spriteBit_wrap _ _ _ hn hr hc]

end sprite

/-- A DRW that completes leaves what it draws from, its sprite and its coordinates, but for VF (R191). -/
theorem drwDrawing_after {x y n : Nibble} {s t : State} (hx : x ≠ 15#4) (hy : y ≠ 15#4)
    (regs : ∀ j, j ≠ 15#4 → t.reg j = s.reg j) (frame : FrameExcept [.V, .disp, .pc] s t) : drwDrawing x y n t =
      drawSprite (fun r => s.byteAt (s.I.toNat + r)) (s.reg x) (s.reg y) n.toNat t.disp := by
  have sameI : t.I = s.I := frame .I (by decide)
  have bytes : t.byteAt = s.byteAt := funext (frame .mem (by decide))
  rw [drwDrawing, sameI, bytes, regs x hx, regs y hy]

/-- Settles O34: both draws are of one sprite at one place, the second on the display that the first left. -/
theorem drawingTwiceRestoresTheDisplay : Obligations.DrawingTwiceRestoresTheDisplay := by
  intro x y n s t hx hy first
  have rows := toNat_nibble_le n
  have fits : n = 0 ∨ s.I.toNat + n.toNat - 1 ≤ 0xFFF :=
    (checkIndex_next first).1.imp (fun none => BitVec.eq_of_toNat_eq none) (fun last => by omega)
  obtain ⟨t', runs, shown, -, regs, -, frame⟩ := exec_drw_within x y n s fits
  obtain rfl : t' = t := by
    rw [runs, Host.Outcome.next.injEq] at first
    exact first
  have sameI : t'.I = s.I := frame .I (by decide)
  obtain ⟨u, second, restored, flag, -⟩ := exec_drw_within x y n t' (sameI ▸ fits)
  rw [drwDrawing_after hx hy regs frame] at restored flag
  have collides := collide_drawSprite_iff (fun r => s.byteAt (s.I.toNat + r)) (s.reg x) (s.reg y) rows t'.disp
  rw [← flagByte_eq_one, ← flag] at collides
  refine ⟨u, second, ?_, collides, fun blank => collides.trans ?_⟩
  · rw [restored, shown]
    exact disp_drawSprite_twice _ _ _ rows s.disp
  · refine exists₂_congr fun r c => and_congr_right fun hr => and_congr_right fun hc => and_iff_left_of_imp fun bit => ?_
    rw [shown]
    exact (pixel_drawSprite_blank _ _ _ rows blank hr hc).trans bit

/-! ## A keypress ends the wait -/

/-- A key that is down after one key was pressed, and was up before, is that key. -/
theorem eq_of_pressed {keys : Keypad} {k j : Fin 16} (down : (keys.set k.val true)[j.val] = true)
    (up : keys[j.val] = false) : j = k := by
  by_contra other
  rw [Vector.getElem_set_ne _ _ fun same => other (Fin.ext same.symm), up] at down
  cases down

/-- Settles O37: the pressed key is the only fresh one, so that KEY_SELECT has no choice. -/
theorem freshKeyEndsTheWait : Obligations.FreshKeyEndsTheWait := by
  intro s t u x k _ begins up pressed
  cases begins
  rw [setKey, dif_pos k.isLt, Option.some.injEq] at pressed
  subst pressed
  obtain ⟨v, steps, -, done⟩ := waitStepRechecksKeypad { s with
    wait := some ⟨x, s.keys⟩, keys := s.keys.set k.toNat true k.isLt } x s.keys rfl
  have fresh : (s.keys.set k.toNat true k.isLt)[k.toNat] = true := Vector.getElem_set_self k.isLt
  obtain ⟨ended, moved, ⟨j, jDown, jUp, value, -⟩, -⟩ := done ⟨⟨k.toNat, k.isLt⟩, fresh, up⟩
  obtain rfl := eq_of_pressed (k := ⟨k.toNat, k.isLt⟩) jDown jUp
  exact ⟨v, steps, value, ended, moved⟩

end Sys2Proof.Machine
end
